-- ==== Sys2Proof/Word.lean ====
section
/-! DEFINITION. The words of the machine: bytes, instruction words, 12-bit addresses, nibbles, register numbers
(00_scope.md R8, R15). -/

namespace Sys2Proof

/-- 8 bits: a general register, a timer, a memory byte, an immediate `kk`. -/
abbrev Byte := BitVec 8

/-- 16 bits: `I`, `pc`, a return address, an instruction word. -/
abbrev Word := BitVec 16

/-- 12 bits: the address field `nnn`. -/
abbrev Addr12 := BitVec 12

/-- 4 bits: the family nibble, the sub-opcode or height `n`. -/
abbrev Nibble := BitVec 4

/-- A general register's number, `V[0]` to `V[15]` (10_state.md R19, R21). -/
abbrev Reg := Fin 16

end Sys2Proof
end

