-- ==== Sys2Proof/Syntax.lean ====
section
/-! DEFINITION. The 35 instructions, one constructor per row of spec/opcode_table.json (30_encoding.md R61), in the table's order. -/

namespace Sys2Proof

/-- One decoded instruction: "a closed set of tagged instruction variants" (30_encoding.md R52). -/
inductive Instr where
  /-- `CLS`, 00E0, ClearScreen (R102). -/
  | cls
  /-- `RET`, 00EE, Return (R80). -/
  | ret
  /-- `SYS nnn`, 0nnn but for 00E0 and 00EE, CallNative (R85). -/
  | sys (nnn : Addr12)
  /-- `JP nnn`, 1nnn, Jump (R77). -/
  | jp (nnn : Addr12)
  /-- `CALL nnn`, 2nnn, Call (R79). -/
  | call (nnn : Addr12)
  /-- `SE Vx, kk`, 3xkk, SkipIfEqual (R81). -/
  | seImm (x : Reg) (kk : Byte)
  /-- `SNE Vx, kk`, 4xkk, SkipIfNotEqual (R82). -/
  | sneImm (x : Reg) (kk : Byte)
  /-- `SE Vx, Vy`, 5xyN for every N, SkipIfRegistersEqual (R83). The low nibble is not examined (R57), so it is no operand. -/
  | seReg (x y : Reg)
  /-- `LD Vx, kk`, 6xkk, SetImmediate (R87). -/
  | ldImm (x : Reg) (kk : Byte)
  /-- `ADD Vx, kk`, 7xkk, AddImmediate (R88). -/
  | addImm (x : Reg) (kk : Byte)
  /-- `LD Vx, Vy`, 8xy0, CopyRegister (R89). -/
  | ldReg (x y : Reg)
  /-- `OR Vx, Vy`, 8xy1, BitwiseOr (R90). -/
  | orReg (x y : Reg)
  /-- `AND Vx, Vy`, 8xy2, BitwiseAnd (R91). -/
  | andReg (x y : Reg)
  /-- `XOR Vx, Vy`, 8xy3, BitwiseXor (R92). -/
  | xorReg (x y : Reg)
  /-- `ADD Vx, Vy`, 8xy4, AddWithCarry (R93). -/
  | addReg (x y : Reg)
  /-- `SUB Vx, Vy`, 8xy5, SubWithBorrow (R94). -/
  | subReg (x y : Reg)
  /-- `SHR Vx, Vy`, 8xy6, ShiftRight (R95). -/
  | shr (x y : Reg)
  /-- `SUBN Vx, Vy`, 8xy7, ReverseSub (R96). -/
  | subn (x y : Reg)
  /-- `SHL Vx, Vy`, 8xyE, ShiftLeft (R97). -/
  | shl (x y : Reg)
  /-- `SNE Vx, Vy`, 9xyN for every N, SkipIfRegistersNotEqual (R84). The low nibble is not examined (R57). -/
  | sneReg (x y : Reg)
  /-- `LD I, nnn`, Annn, SetIndexImmediate (R99). -/
  | ldI (nnn : Addr12)
  /-- `JP V0, nnn`, Bnnn, JumpPlusV0 (R78). -/
  | jpV0 (nnn : Addr12)
  /-- `RND Vx, kk`, Cxkk, RandomMasked (R100). -/
  | rnd (x : Reg) (kk : Byte)
  /-- `DRW Vx, Vy, n`, Dxyn, DrawSprite (R103). -/
  | drw (x y : Reg) (n : Nibble)
  /-- `SKP Vx`, Ex9E, SkipIfKeyDown (R104). -/
  | skp (x : Reg)
  /-- `SKNP Vx`, ExA1, SkipIfKeyUp (R105). -/
  | sknp (x : Reg)
  /-- `LD Vx, DT`, Fx07, SetRegisterFromDelay (R107). -/
  | ldVxDt (x : Reg)
  /-- `LD Vx, K`, Fx0A, WaitForKeyInto (R106). -/
  | ldVxK (x : Reg)
  /-- `LD DT, Vx`, Fx15, SetDelayFromRegister (R108). -/
  | ldDtVx (x : Reg)
  /-- `LD ST, Vx`, Fx18, SetSoundFromRegister (R109). -/
  | ldStVx (x : Reg)
  /-- `ADD I, Vx`, Fx1E, AddToIndex (R98). -/
  | addI (x : Reg)
  /-- `LD F, Vx`, Fx29, LoadSpriteAddress (R110). -/
  | ldF (x : Reg)
  /-- `LD B, Vx`, Fx33, StoreBCD (R111). -/
  | ldB (x : Reg)
  /-- `LD [I], Vx`, Fx55, DumpRegisters (R112). -/
  | dump (x : Reg)
  /-- `LD Vx, [I]`, Fx65, LoadRegisters (R113). -/
  | load (x : Reg)
  deriving DecidableEq, Repr

end Sys2Proof
end

