-- ==== Sys2Proof/Config.lean ====
section
/-! DEFINITION. The implementation parameters of 00_scope.md section 3, and the free values: the OPEN font base and the
collaborators' answers (60_exceptions.md R130), which are constants with no body. -/

namespace Sys2Proof.Config

/-- `MEM_SIZE` (R6). -/
def memSize : Nat := 4096

/-- `PROG_BASE` (R7). -/
def progBase : Nat := 0x200

/-- `PROG_MAX = MEM_SIZE - PROG_BASE` (R7). -/
def progMax : Nat := memSize - progBase

/-- `STACK_DEPTH` (R9). -/
def stackDepth : Nat := 16

/-- `KEY_COUNT` (R13). -/
def keyCount : Nat := 16

/-- `GLYPH_SIZE` (R11). -/
def glyphSize : Nat := 5

/-- `ODD_PC_POLICY` (R14): what a fetch from an odd `pc` does. -/
inductive OddPcPolicy where
  /-- The default: the cycle raises `MisalignedFetch`. -/
  | fault
  /-- The two bytes are fetched as from an even address. -/
  | fetch
  deriving DecidableEq, Repr

/-- `SUBN_FLAG_POLICY` (R14): the flag effect of reverse-subtract (42_data_ops.md R96). -/
inductive SubnFlagPolicy where
  /-- The default: VF is 1 on a borrow and is left unchanged otherwise. -/
  | design
  /-- VF is 1 when `V[y] >= V[x]` and 0 otherwise. -/
  | canonical
  deriving DecidableEq, Repr

/-- `FONT_BASE` (R11), OPEN: any value with `FONT_BASE + 80 <= PROG_BASE`, that is 0 to 432. DESIGN CHOICE (log 2), safe: nothing
can be proved of which value it is. -/
opaque fontBase : Fin 433

/-- The answer of the `n`-th collaborator call, were it `RandomByte()` (R130): free. DESIGN CHOICE of form (log 7), safe. -/
opaque randomByte : Nat → Byte

/-- The answer of the `n`-th collaborator call, were it `IsKeyDown(k)` (R130): free for every `k`, 16 and above too (D26).
DESIGN CHOICE of form (log 7), safe. -/
opaque keyDown : Nat → Byte → Bool

/-- The answer of the `n`-th collaborator call, were it `RequestDraw(x, y, bytes)` (R130): free. DESIGN CHOICE of form (log 7),
safe. -/
opaque drawCollides : Nat → Byte → Byte → List Byte → Bool

/-- The parameters the model takes as arguments (R11, R12, R14), as plain data. They stand in `State.params`, so that a statement
about every state holds for every value of each. DESIGN CHOICE of place (log 6), safe. -/
structure Params where
  /-- `FONT_BASE`; the type carries the bound `FONT_BASE + 80 <= 0x200` (R11). -/
  fontBase : Fin 433
  /-- `RESERVED_IMAGE` (R12): entry `j` is the byte of address `j` after reset; addresses past its end are 0, and entries past
  0x1FF are not used. -/
  reservedImage : List Byte
  /-- `ODD_PC_POLICY` (R14). -/
  oddPc : OddPcPolicy
  /-- `SUBN_FLAG_POLICY` (R14). -/
  subnFlag : SubnFlagPolicy
  deriving DecidableEq, Repr

/-- The parameters as the spec takes them for the hardware: the defaults of R12 (512 zero bytes, log 3) and R14 (`fault`, log 4, and
`design`, log 5), and the open font base. -/
def defaultParams : Params :=
  { fontBase := fontBase, reservedImage := [], oddPc := .fault, subnFlag := .design }

end Sys2Proof.Config
end

