-- ==== Sys2Proof/Machine/State.lean ====
section
/-! DEFINITION. The state of the core (10_state.md R17 to R33), as plain data, and the state after reset. -/

namespace Sys2Proof.Machine

/-- An error a cycle raises (60_exceptions.md R114; error 5, `ProgramTooLarge`, is no cycle error and stands in `Fault`). Raising one
is a NEXT state: the fault latch is written and nothing else (40_cycle.md R72). -/
inductive CycleError where
  /-- Error 1: the fetched word matches no pattern; the word and the fetch address (40_cycle.md R68). -/
  | decodeFailure (word pcFetch : Word)
  /-- Error 2: a call with the stack at depth 16 (41_control_flow.md R79). -/
  | stackOverflow (pcFetch : Word)
  /-- Error 3: a return with the stack empty (41_control_flow.md R80). -/
  | stackUnderflow (pcFetch : Word)
  /-- Error 4: an access at or above 0x1000; the fetch address and the first bad address, an unbounded natural (20_memory.md R36). -/
  | outOfBoundsAccess (pcFetch : Word) (addr : Nat)
  /-- Error 6: a fetch from an odd `pc` under `ODD_PC_POLICY = fault` (40_cycle.md R65). -/
  | misalignedFetch (pcFetch : Word)
  /-- Error 7: `SYS` executed; the word and the fetch address (41_control_flow.md R85). -/
  | unsupportedNativeCall (word pcFetch : Word)
  deriving DecidableEq, Repr

/-- The error's code number (60_exceptions.md R114). -/
def CycleError.code : CycleError → Nat
  | .decodeFailure _ _ => 1
  | .stackOverflow _ => 2
  | .stackUnderflow _ => 3
  | .outOfBoundsAccess _ _ => 4
  | .misalignedFetch _ => 6
  | .unsupportedNativeCall _ _ => 7

/-- The fetch address an error records: "Every error raised within the cycle reports it" (40_cycle.md R64). -/
def CycleError.pcFetch : CycleError → Word
  | .decodeFailure _ p => p
  | .stackOverflow p => p
  | .stackUnderflow p => p
  | .outOfBoundsAccess p _ => p
  | .misalignedFetch p => p
  | .unsupportedNativeCall _ p => p

/-- A call of the core to a collaborator, with its arguments (60_exceptions.md R130). -/
inductive Call where
  /-- `RandomByte()`, from Cxkk. -/
  | randomByte
  /-- `IsKeyDown(k)`, from Ex9E and ExA1. -/
  | isKeyDown (k : Byte)
  /-- `RequestDraw(x, y, bytes)`, from Dxyn. -/
  | requestDraw (x y : Byte) (bytes : List Byte)
  /-- `ClearScreen()`, from 00E0; it has no answer. -/
  | clearScreen
  deriving DecidableEq, Repr

/-- Why a host call is turned down with an error. NO CYCLE of the core ends in a fault: a cycle error is taken into the latch. -/
inductive Fault where
  /-- Error 5, raised by `loadProgram` alone: the image is longer than 3584 bytes; the length (60_exceptions.md R114, 70_reset R135).
  The state stays as it was. Safe: it is the spec's own outcome (log 14). -/
  | programTooLarge (length : Nat)
  deriving DecidableEq, Repr

/-- The error's code number (60_exceptions.md R114). -/
def Fault.code : Fault → Nat
  | .programTooLarge _ => 5

/-- What the model has no step for. -/
inductive Refusal where
  /-- An instruction with no meaning yet, by its mnemonic. Raised by no arm of `exec`: every instruction has its meaning. Safe. -/
  | notModelled (mnemonic : String)
  /-- `supplyKey(k)` with `k >= 16`, "outside the host's contract. The model refuses it" (60_exceptions.md R125). Raised by
  `supplyKey` alone, never by a cycle. Unsafe (the spec's D26: no claim covers a host that supplies such a key; log 13). -/
  | keyOutOfRange (k : Nat)
  deriving DecidableEq, Repr

/-- Memory: the bytes that are not 0, by address. An address not listed reads as 0, as reset leaves it (10_state.md R33; log 1). -/
abbrev Memory := List Host.Cell

/-- The canonical form: addresses strictly rising, every address one of the 4096, and no entry equal to what an unlisted address
reads as. -/
abbrev Memory.wf (m : Memory) : Prop :=
  m.Pairwise (fun a b => a.1 < b.1) ∧ ∀ c ∈ m, c.1 < Config.memSize ∧ c.2 ≠ 0#8

/-- The sixteen general registers (10_state.md R19). -/
abbrev Regs := Vector Byte 16

/-- The state between two cycles. The first nine fields are the spec's record (10_state.md R17); `draws`, `calls` and `params` are the
model's own: the outside world's free answers, what the core asked of it, and the parameters. -/
structure State where
  /-- Memory (R34). -/
  mem : Memory
  /-- `V[0]` to `V[15]`; `V[15]` is the flag register VF (R19). -/
  v : Regs
  /-- The index register `I` (R23). -/
  i : Word
  /-- The program counter (R24). -/
  pc : Word
  /-- The return stack, the oldest entry first (R28). -/
  stack : List Word
  /-- The delay timer (R29). -/
  dt : Byte
  /-- The sound timer (R29). -/
  st : Byte
  /-- The register a pending key wait will write (R30). -/
  awaiting : Option Reg
  /-- The fault latch (R31). -/
  fault : Option CycleError
  /-- MODEL'S OWN: the index of the next collaborator answer (log 7). -/
  draws : Nat
  /-- MODEL'S OWN: the collaborator calls made so far, the oldest first (log 8). -/
  calls : List Call
  /-- MODEL'S OWN: the parameters, which nothing changes (log 6). -/
  params : Config.Params
  deriving DecidableEq, Repr

/-- The state right after `reset()` and at power-on (10_state.md R33, 70_reset_and_hazards.md R133, R134), under the default parameters.
`draws` and `calls` start at 0 and empty: DESIGN CHOICE (logs 7, 8). -/
def State.reset : State :=
  { mem := []
    v := Vector.replicate 16 0#8
    i := 0x0000#16
    pc := 0x0000#16
    stack := []
    dt := 0#8
    st := 0#8
    awaiting := none
    fault := none
    draws := 0
    calls := []
    params := Config.defaultParams }

end Sys2Proof.Machine
end

