-- ==== Sys2Proof/Machine/Ops.lean ====
section
/-! DEFINITION. The named operations over memory, the registers, the stack, the collaborators, and taking an error. -/

namespace Sys2Proof.Machine

/-! ### Memory (20_memory.md R34 to R41) -/

/-- The byte at an address: its entry, or 0 where none is listed. -/
def Memory.get : Memory → Nat → Byte
  | [], _ => 0#8
  | (k, b) :: m, a => if a = k then b else Memory.get m a

/-- Memory with the byte at an address replaced, in canonical form: a 0 takes the entry out. -/
def Memory.set : Memory → Nat → Byte → Memory
  | [], a, b => if b = 0#8 then [] else [(a, b)]
  | (k, c) :: m, a, b =>
    if a < k then (if b = 0#8 then (k, c) :: m else (a, b) :: (k, c) :: m)
    else if a = k then (if b = 0#8 then m else (a, b) :: m)
    else (k, c) :: Memory.set m a b

/-- `n` bytes from `base` upward, in ascending address order (43_io_adjacent.md R103, R113). -/
def Memory.getRange (m : Memory) (base : Nat) : Nat → List Byte
  | 0 => []
  | n + 1 => Memory.get m base :: Memory.getRange m (base + 1) n

/-- The bytes of a list written from `base` upward (43_io_adjacent.md R111, R112). -/
def Memory.setRange (m : Memory) (base : Nat) : List Byte → Memory
  | [] => m
  | b :: bs => Memory.setRange (Memory.set m base b) (base + 1) bs

/-- The bounds check of an access to `len` bytes from `base`, made for the whole range before any byte moves (20_memory.md R40): the
lowest out-of-range address, `max(base, MEM_SIZE)` (R36; 43_io_adjacent.md, header), or none. An empty range is never out of
range. Addresses are unbounded naturals, so nothing wraps. -/
def firstOutOfRange (base len : Nat) : Option Nat :=
  if len = 0 then none
  else if base + len ≤ Config.memSize then none
  else some (max base Config.memSize)

/-! ### Registers (10_state.md R19 to R29) -/

/-- `V[x]`. -/
def State.getV (s : State) (x : Reg) : Byte := s.v[x]

/-- `V[x] <- b`. -/
def State.setV (s : State) (x : Reg) (b : Byte) : State := { s with v := s.v.set x b }

/-- `V[0]` to `V[n-1]` taken from the bytes of a list, in ascending register order (43_io_adjacent.md R113). -/
def State.loadV (s : State) (bytes : List Byte) : State :=
  { s with v := Vector.ofFn fun r : Fin 16 => bytes.getD r (s.v[r]) }

/-- `I <- w`. -/
def State.setI (s : State) (w : Word) : State := { s with i := w }

/-- `pc <- w`. -/
def State.setPc (s : State) (w : Word) : State := { s with pc := w }

/-- `DT <- b`. -/
def State.setDt (s : State) (b : Byte) : State := { s with dt := b }

/-- `ST <- b`. -/
def State.setSt (s : State) (b : Byte) : State := { s with st := b }

/-- Memory replaced. -/
def State.setMem (s : State) (m : Memory) : State := { s with mem := m }

/-- The stack replaced. -/
def State.setStack (s : State) (l : List Word) : State := { s with stack := l }

/-- `awaiting <- a`. -/
def State.setAwaiting (s : State) (a : Option Reg) : State := { s with awaiting := a }

/-- `fault <- e`. -/
def State.setFault (s : State) (e : Option CycleError) : State := { s with fault := e }

/-- The fetch advance, `pc <- (pc_fetch + 2) mod 2^16` (40_cycle.md R67). Every meaning takes the state at the cycle's start, where
`pc = pc_fetch`, and makes this advance itself (log 16). -/
def State.advance (s : State) : State := s.setPc (s.pc + 2#16)

/-- A skip: "if the condition holds, advance PC by an additional 2" (41_control_flow.md R81). -/
def State.skipIf (s : State) (c : Bool) : State := s.setPc (if c then s.pc + 2#16 else s.pc)

/-! ### The stack (10_state.md R28) -/

/-- `push(v)`; none where the stack is at its depth of 16. -/
def State.push (s : State) (w : Word) : Option State :=
  if Config.stackDepth ≤ s.stack.length then none else some (s.setStack (s.stack ++ [w]))

/-- `pop()`; none where the stack is empty. -/
def State.pop (s : State) : Option (Word × State) :=
  match s.stack.getLast? with
  | none => none
  | some w => some (w, s.setStack s.stack.dropLast)

/-! ### Collaborators (60_exceptions.md R130) -/

/-- A call that has no answer. -/
def State.tell (s : State) (c : Call) : State := { s with calls := s.calls ++ [c] }

/-- A call that has an answer: the answer is the free value of index `s.draws`, and the index moves on (log 7). -/
def State.ask (s : State) (c : Call) : State := { s with calls := s.calls ++ [c], draws := s.draws + 1 }

/-- What `RandomByte()` answers in this state. -/
def State.randomAnswer (s : State) : Byte := Config.randomByte s.draws

/-- What `IsKeyDown(k)` answers in this state. -/
def State.keyAnswer (s : State) (k : Byte) : Bool := Config.keyDown s.draws k

/-- What `RequestDraw(x, y, bytes)` answers in this state. -/
def State.drawAnswer (s : State) (x y : Byte) (bytes : List Byte) : Bool := Config.drawCollides s.draws x y bytes

/-! ### Taking an error (40_cycle.md R72, 60_exceptions.md R118) -/

/-- `raise E`: `s` is the state at the cycle's start, so nothing the cycle did is kept; the error goes into the fault latch. There is
no vector, no saved register and no mode (R118). Nothing returns from it but `reset()` (R119). -/
def raise (e : CycleError) (s : State) : Host.Outcome State Fault Refusal := .next (s.setFault (some e))

/-- An access to `len` bytes from `base`: out of range it raises `OutOfBoundsAccess`, and nothing of `t` happens; else `t` is the next
state. -/
def guardRange (base len : Nat) (s t : State) : Host.Outcome State Fault Refusal :=
  match firstOutOfRange base len with
  | some a => raise (.outOfBoundsAccess s.pc a) s
  | none => .next t

end Sys2Proof.Machine
end

