-- ==== Sys2Proof/Machine/Operands.lean ====
section
/-! DEFINITION. The operand forms (30_encoding.md R49, R51): a register, an 8-bit immediate, a 12-bit address, a count, the block at
`I`, a glyph address, decimal digits. -/

namespace Sys2Proof.Machine

/-- An address operand in a 16-bit destination: `zext_16(nnn)` (R51). -/
def addrOperand (nnn : Addr12) : Word := nnn.setWidth 16

/-- A byte widened to 16 bits: `zext_16(v)` (00_scope.md R15). -/
def wideByte (b : Byte) : Word := b.setWidth 16

/-- The count `n`, 0 to 15 (R51). -/
def countOperand (n : Nibble) : Nat := n.toNat

/-- The base of an access through `I`, an unbounded natural (20_memory.md R36). -/
def State.blockBase (s : State) : Nat := s.i.toNat

/-- The number of registers `V[0]` to `V[x]`, 1 to 16. -/
def blockLength (x : Reg) : Nat := x.val + 1

/-- The bytes of `V[0]` to `V[x]` (43_io_adjacent.md R112). -/
def State.blockBytes (s : State) (x : Reg) : List Byte := s.v.toList.take (blockLength x)

/-- The sprite's bytes: `n` bytes from `I` (43_io_adjacent.md R103). -/
def State.spriteBytes (s : State) (n : Nibble) : List Byte := Memory.getRange s.mem s.blockBase (countOperand n)

/-- `(FONT_BASE + 5 * v) mod 2^16`, the full 8-bit value used (43_io_adjacent.md R110). -/
def glyphAddress (fontBase : Fin 433) (b : Byte) : Word :=
  BitVec.ofNat 16 (fontBase.val + Config.glyphSize * b.toNat)

/-- The decimal digits of a byte, hundreds, tens, ones (43_io_adjacent.md R111). -/
def decimalDigits (b : Byte) : List Byte :=
  [BitVec.ofNat 8 (b.toNat / 100), BitVec.ofNat 8 (b.toNat / 10 % 10), BitVec.ofNat 8 (b.toNat % 10)]

end Sys2Proof.Machine
end

