-- ==== Sys2Proof/Machine/Cycle.lean ====
section
/-! DEFINITION. The start of a cycle, up to the decoded instruction: the two waits, the alignment check, the fetch, decode
(40_cycle.md R63 to R68). The order of the tests is that of 60_exceptions.md R116. -/

namespace Sys2Proof.Machine

/-- The fetch from `pc` (40_cycle.md R65, R66): `MisalignedFetch` under the default policy, then the range, then the big-endian word
(20_memory.md R38). -/
def fetchWord (s : State) : Except CycleError Word :=
  if s.pc.toNat % 2 = 1 ∧ s.params.oddPc = .fault then .error (.misalignedFetch s.pc)
  else
    match firstOutOfRange s.pc.toNat 2 with
    | some a => .error (.outOfBoundsAccess s.pc a)
    | none => .ok (wordOfBytes (Memory.get s.mem s.pc.toNat) (Memory.get s.mem (s.pc.toNat + 1)))

/-- How a cycle goes on after decode. -/
inductive CycleStart where
  /-- The latch is set or a key is awaited: the cycle changes nothing (R72, R73). -/
  | held
  /-- The fetch or the decode raised an error. -/
  | raised (e : CycleError)
  /-- The instruction to execute (R69). -/
  | run (i : Instr)
  deriving DecidableEq, Repr

/-- The cycle up to the decoded instruction (R63). -/
def startCycle (s : State) : CycleStart :=
  if s.fault.isSome then .held
  else if s.awaiting.isSome then .held
  else
    match fetchWord s with
    | .error e => .raised e
    | .ok w =>
      match decode w with
      | .error _ => .raised (.decodeFailure w s.pc)
      | .ok i => .run i

/-- Memory with an instruction word at an address, in the order a fetch reads it (20_memory.md R38). -/
def Memory.setWord (m : Memory) (a : Nat) (w : Word) : Memory :=
  Memory.set (Memory.set m a (wordHi w)) (a + 1) (wordLo w)

end Sys2Proof.Machine
end

