-- ==== Sys2Proof/Machine/Flags.lean ====
section
/-! DEFINITION. The flag register VF and every flag the spec computes (10_state.md R27). A flag is `some b` where it is written and
`none` where VF is "left unchanged". -/

namespace Sys2Proof.Machine

/-- VF, `V[15]` (10_state.md R19). -/
def flagReg : Reg := 15

/-- The flag write, the instruction's last write (40_cycle.md R71). -/
def State.setFlag (s : State) (f : Option Byte) : State :=
  match f with
  | none => s
  | some b => s.setV flagReg b

/-- 1 for true, 0 for false. -/
def bitFlag (c : Bool) : Byte := if c then 1#8 else 0#8

/-- 8xy4: 1 if `V[x] + V[y] > 255`, else unchanged (42_data_ops.md R93). -/
def carryFlag (vx vy : Byte) : Option Byte := if 255 < vx.toNat + vy.toNat then some 1#8 else none

/-- 8xy5, for minuend and subtrahend: 1 on a borrow, else unchanged (42_data_ops.md R94). -/
def borrowFlag (minuend subtrahend : Byte) : Option Byte :=
  if minuend.toNat < subtrahend.toNat then some 1#8 else none

/-- 8xy7, per `SUBN_FLAG_POLICY` (42_data_ops.md R96). -/
def reverseFlag (p : Config.SubnFlagPolicy) (vx vy : Byte) : Option Byte :=
  match p with
  | .design => borrowFlag vy vx
  | .canonical => some (bitFlag (decide (vx.toNat ≤ vy.toNat)))

/-- 8xy6: the shifted-out bit 0 of `V[y]` (42_data_ops.md R95). -/
def lowBitFlag (vy : Byte) : Option Byte := some (vy &&& 1#8)

/-- 8xyE: the shifted-out bit 7 of `V[y]` (42_data_ops.md R97). -/
def highBitFlag (vy : Byte) : Option Byte := some (vy >>> 7)

/-- Dxyn: 1 on a collision, else 0, always written (43_io_adjacent.md R103). -/
def collisionFlag (hit : Bool) : Option Byte := some (bitFlag hit)

end Sys2Proof.Machine
end

