-- ==== Sys2Proof/Machine/ControlFlow.lean ====
section
/-! DEFINITION. The control-flow instructions (41_control_flow.md R77 to R86), and `SYS`. Every meaning takes the state at the start
of the cycle, where `pc = pc_fetch`, and makes the fetch advance itself (log 16). -/

namespace Sys2Proof.Machine

/-- `RET` (R80): `pc <- pop()`. -/
def execRet (s : State) : Host.Outcome State Fault Refusal :=
  match s.pop with
  | none => raise (.stackUnderflow s.pc) s
  | some (w, t) => .next (t.setPc w)

/-- `SYS nnn` (R85): always `UnsupportedNativeCall`; the word of format A with family 0 is recorded (log 18). -/
def execSys (nnn : Addr12) (s : State) : Host.Outcome State Fault Refusal :=
  raise (.unsupportedNativeCall (addrOperand nnn) s.pc) s

/-- `JP nnn` (R77). -/
def execJp (nnn : Addr12) (s : State) : Host.Outcome State Fault Refusal :=
  .next (s.advance.setPc (addrOperand nnn))

/-- `CALL nnn` (R79): the value pushed is `pc_fetch + 2`. -/
def execCall (nnn : Addr12) (s : State) : Host.Outcome State Fault Refusal :=
  match s.advance.push s.advance.pc with
  | none => raise (.stackOverflow s.pc) s
  | some t => .next (t.setPc (addrOperand nnn))

/-- `SE Vx, kk` (R81). -/
def execSeImm (x : Reg) (kk : Byte) (s : State) : Host.Outcome State Fault Refusal :=
  .next (s.advance.skipIf (s.getV x == kk))

/-- `SNE Vx, kk` (R82). -/
def execSneImm (x : Reg) (kk : Byte) (s : State) : Host.Outcome State Fault Refusal :=
  .next (s.advance.skipIf (s.getV x != kk))

/-- `SE Vx, Vy` (R83). -/
def execSeReg (x y : Reg) (s : State) : Host.Outcome State Fault Refusal :=
  .next (s.advance.skipIf (s.getV x == s.getV y))

/-- `SNE Vx, Vy` (R84). -/
def execSneReg (x y : Reg) (s : State) : Host.Outcome State Fault Refusal :=
  .next (s.advance.skipIf (s.getV x != s.getV y))

/-- `JP V0, nnn` (R78): the sum is not masked to 12 bits, and the register is `V[0]` whatever the word's bits 11 to 8 are. -/
def execJpV0 (nnn : Addr12) (s : State) : Host.Outcome State Fault Refusal :=
  .next (s.advance.setPc (addrOperand nnn + wideByte (s.getV 0)))

end Sys2Proof.Machine
end

