-- ==== Sys2Proof/Machine/DataOps.lean ====
section
/-! DEFINITION. The data operations (42_data_ops.md R87 to R101). Operands are read from `s`, the state before any write
(40_cycle.md R70); the flag is written last (R71). -/

namespace Sys2Proof.Machine

/-- The shape of every instruction of this file that writes a register: the result into `V[x]`, then the flag into VF. -/
def writeResult (x : Reg) (result : Byte) (flag : Option Byte) (s : State) : Host.Outcome State Fault Refusal :=
  .next ((s.advance.setV x result).setFlag flag)

/-- `LD Vx, kk` (R87). -/
def execLdImm (x : Reg) (kk : Byte) (s : State) : Host.Outcome State Fault Refusal := writeResult x kk none s

/-- `ADD Vx, kk` (R88): no flag. -/
def execAddImm (x : Reg) (kk : Byte) (s : State) : Host.Outcome State Fault Refusal := writeResult x (s.getV x + kk) none s

/-- `LD Vx, Vy` (R89). -/
def execLdReg (x y : Reg) (s : State) : Host.Outcome State Fault Refusal := writeResult x (s.getV y) none s

/-- `OR Vx, Vy` (R90): no flag. -/
def execOrReg (x y : Reg) (s : State) : Host.Outcome State Fault Refusal := writeResult x (s.getV x ||| s.getV y) none s

/-- `AND Vx, Vy` (R91): no flag. -/
def execAndReg (x y : Reg) (s : State) : Host.Outcome State Fault Refusal := writeResult x (s.getV x &&& s.getV y) none s

/-- `XOR Vx, Vy` (R92): no flag. -/
def execXorReg (x y : Reg) (s : State) : Host.Outcome State Fault Refusal := writeResult x (s.getV x ^^^ s.getV y) none s

/-- `ADD Vx, Vy` (R93). -/
def execAddReg (x y : Reg) (s : State) : Host.Outcome State Fault Refusal :=
  writeResult x (s.getV x + s.getV y) (carryFlag (s.getV x) (s.getV y)) s

/-- `SUB Vx, Vy` (R94). -/
def execSubReg (x y : Reg) (s : State) : Host.Outcome State Fault Refusal :=
  writeResult x (s.getV x - s.getV y) (borrowFlag (s.getV x) (s.getV y)) s

/-- `SHR Vx, Vy` (R95): the source is `V[y]`. -/
def execShr (x y : Reg) (s : State) : Host.Outcome State Fault Refusal :=
  writeResult x (s.getV y >>> 1) (lowBitFlag (s.getV y)) s

/-- `SUBN Vx, Vy` (R96). -/
def execSubn (x y : Reg) (s : State) : Host.Outcome State Fault Refusal :=
  writeResult x (s.getV y - s.getV x) (reverseFlag s.params.subnFlag (s.getV x) (s.getV y)) s

/-- `SHL Vx, Vy` (R97): the source is `V[y]`. -/
def execShl (x y : Reg) (s : State) : Host.Outcome State Fault Refusal :=
  writeResult x (s.getV y <<< 1) (highBitFlag (s.getV y)) s

/-- `LD I, nnn` (R99). -/
def execLdI (nnn : Addr12) (s : State) : Host.Outcome State Fault Refusal :=
  .next (s.advance.setI (addrOperand nnn))

/-- `RND Vx, kk` (R100): `RandomByte()` is called once, and its answer is free (log 7). -/
def execRnd (x : Reg) (kk : Byte) (s : State) : Host.Outcome State Fault Refusal :=
  writeResult x (s.randomAnswer &&& kk) none (s.ask .randomByte)

/-- `ADD I, Vx` (R98): a raw 16-bit sum, no flag. -/
def execAddI (x : Reg) (s : State) : Host.Outcome State Fault Refusal :=
  .next (s.advance.setI (s.i + wideByte (s.getV x)))

end Sys2Proof.Machine
end

