-- ==== Sys2Proof/Machine/IoAdjacent.lean ====
section
/-! DEFINITION. The I/O-adjacent, timer and memory-transfer instructions (43_io_adjacent.md R102 to R113). A collaborator is called
only after every check that can raise (R72); its answer is free (60_exceptions.md R130, log 7). -/

namespace Sys2Proof.Machine

/-- `CLS` (R102): one `ClearScreen()` request, and no core state but `pc` changes. -/
def execCls (s : State) : Host.Outcome State Fault Refusal := .next (s.advance.tell .clearScreen)

/-- `DRW Vx, Vy, n` (R103): the range is checked, the sprite read, the draw requested, and VF always written last. -/
def execDrw (x y : Reg) (n : Nibble) (s : State) : Host.Outcome State Fault Refusal :=
  guardRange s.blockBase (countOperand n) s
    ((s.advance.ask (.requestDraw (s.getV x) (s.getV y) (s.spriteBytes n))).setFlag
      (collisionFlag (s.drawAnswer (s.getV x) (s.getV y) (s.spriteBytes n))))

/-- `SKP Vx` (R104): the full 8-bit value is passed. -/
def execSkp (x : Reg) (s : State) : Host.Outcome State Fault Refusal :=
  .next ((s.advance.ask (.isKeyDown (s.getV x))).skipIf (s.keyAnswer (s.getV x)))

/-- `SKNP Vx` (R105). -/
def execSknp (x : Reg) (s : State) : Host.Outcome State Fault Refusal :=
  .next ((s.advance.ask (.isKeyDown (s.getV x))).skipIf (!s.keyAnswer (s.getV x)))

/-- `LD Vx, DT` (R107). -/
def execLdVxDt (x : Reg) (s : State) : Host.Outcome State Fault Refusal := .next (s.advance.setV x s.dt)

/-- `LD Vx, K` (R106): the wait begins; the register is written at `supplyKey` (Machine/HostOps.lean). -/
def execLdVxK (x : Reg) (s : State) : Host.Outcome State Fault Refusal := .next (s.advance.setAwaiting (some x))

/-- `LD DT, Vx` (R108). -/
def execLdDtVx (x : Reg) (s : State) : Host.Outcome State Fault Refusal := .next (s.advance.setDt (s.getV x))

/-- `LD ST, Vx` (R109). -/
def execLdStVx (x : Reg) (s : State) : Host.Outcome State Fault Refusal := .next (s.advance.setSt (s.getV x))

/-- `LD F, Vx` (R110): no memory is read. -/
def execLdF (x : Reg) (s : State) : Host.Outcome State Fault Refusal :=
  .next (s.advance.setI (glyphAddress s.params.fontBase (s.getV x)))

/-- `LD B, Vx` (R111). -/
def execLdB (x : Reg) (s : State) : Host.Outcome State Fault Refusal :=
  guardRange s.blockBase 3 s
    (s.advance.setMem (Memory.setRange s.mem s.blockBase (decimalDigits (s.getV x))))

/-- `LD [I], Vx` (R112): `I` is not changed. -/
def execDump (x : Reg) (s : State) : Host.Outcome State Fault Refusal :=
  guardRange s.blockBase (blockLength x) s
    (s.advance.setMem (Memory.setRange s.mem s.blockBase (s.blockBytes x)))

/-- `LD Vx, [I]` (R113): `I` is not changed. -/
def execLoad (x : Reg) (s : State) : Host.Outcome State Fault Refusal :=
  guardRange s.blockBase (blockLength x) s
    (s.advance.loadV (Memory.getRange s.mem s.blockBase (blockLength x)))

end Sys2Proof.Machine
end

