-- ==== Sys2Proof/Machine/Step.lean ====
section
/-! DEFINITION. One step of the machine: one `runOneCycle()` (40_cycle.md R63). -/

namespace Sys2Proof.Machine

/-- One cycle. While the latch is set or a key is awaited it changes nothing (R72, R73); an error of the fetch or of decode is taken;
else the decoded instruction is executed. The operations of the host (60_exceptions.md R123) come between steps and stand in
Machine/HostOps.lean (log 9). -/
def step (s : State) : Host.Outcome State Fault Refusal :=
  match startCycle s with
  | .held => .next s
  | .raised e => raise e s
  | .run i => exec i s

/-- `s` with the instruction of the table word `w` stored where the next fetch reads, and neither of the two states set in which a
cycle fetches nothing. Bits at and above `nbits` are 0. It stands for the load of a program from outside (log 11). -/
def State.withFetchWord (s : State) (nbits w : Nat) : State :=
  ((s.setMem (Memory.setWord s.mem s.pc.toNat (BitVec.ofNat 16 (w % 2 ^ nbits)))).setAwaiting none).setFault none

end Sys2Proof.Machine
end

