-- ==== Sys2Proof/Machine/HostOps.lean ====
section
/-! DEFINITION. The operations the core exposes to its host (60_exceptions.md R123 to R128, 70_reset_and_hazards.md R133 to R136). They
come only between two cycles (40_cycle.md R74), in any order. -/

namespace Sys2Proof.Machine

/-- The content of Memory after reset (R133): `RESERVED_IMAGE` at 0x000 to 0x1FF, zero above. -/
def resetMemory (p : Config.Params) : Memory := Memory.setRange [] 0 (p.reservedImage.take Config.progBase)

/-- `reset()` (R133): the whole state takes its reset value. What is not the core's stays: the parameters, the record of calls, and the
index of the next free answer (log 12). -/
def hostReset (s : State) : State :=
  { State.reset with
    mem := resetMemory s.params
    draws := s.draws
    calls := s.calls
    params := s.params }

/-- `loadProgram(bytes)` (R135): the image at 0x200 and `pc = 0x200`, or `ProgramTooLarge` with no state change. -/
def loadProgram (image : List Byte) (s : State) : Host.Outcome State Fault Refusal :=
  if Config.progMax < image.length then .fault (.programTooLarge image.length)
  else .next ((s.setMem (Memory.setRange s.mem Config.progBase image)).setPc (BitVec.ofNat 16 Config.progBase))

/-- `isAwaitingKey()` (R124). -/
def isAwaitingKey (s : State) : Bool := s.awaiting.isSome

/-- `supplyKey(k)` (R125): ends a pending wait; with none pending it has no effect; a `k` of 16 or more is refused (log 13). -/
def supplyKey (k : Nat) (s : State) : Host.Outcome State Fault Refusal :=
  if Config.keyCount ≤ k then .refused (.keyOutOfRange k)
  else
    match s.awaiting with
    | none => .next s
    | some x => .next ((s.setV x (BitVec.ofNat 8 k)).setAwaiting none)

/-- A timer after one tick: "clamped at 0" (R126). -/
def tickDown (b : Byte) : Byte := if b = 0#8 then 0#8 else b - 1#8

/-- `TickTimers()` (R126): the pacer's call, in any state. -/
def tickTimers (s : State) : State := (s.setDt (tickDown s.dt)).setSt (tickDown s.st)

/-- The read-only snapshot of `inspectState()` (R127): the spec's nine components. -/
structure Snapshot where
  /-- The 4096 bytes of Memory, in address order. -/
  mem : List Byte
  /-- `V[0]` to `V[15]`. -/
  v : Regs
  /-- `I`. -/
  i : Word
  /-- `pc`. -/
  pc : Word
  /-- The stack, the oldest entry first. -/
  stack : List Word
  /-- `DT`. -/
  dt : Byte
  /-- `ST`. -/
  st : Byte
  /-- The pending key wait. -/
  awaiting : Option Reg
  /-- The fault latch. -/
  fault : Option CycleError
  deriving DecidableEq, Repr

/-- `inspectState()` (R127). -/
def inspectState (s : State) : Snapshot :=
  { mem := Memory.getRange s.mem 0 Config.memSize
    v := s.v, i := s.i, pc := s.pc, stack := s.stack, dt := s.dt, st := s.st
    awaiting := s.awaiting, fault := s.fault }

/-- The four outcomes of `runOneCycle()` (R63). -/
inductive CycleOutcome where
  /-- `Ok`. -/
  | ok
  /-- `AwaitingKey`. -/
  | awaitingKey
  /-- `Error(E)`: this cycle raised E. -/
  | error (e : CycleError)
  /-- `Faulted(E)`: an earlier cycle raised E. -/
  | faulted (e : CycleError)
  deriving DecidableEq, Repr

/-- What `runOneCycle()` answers for a cycle from `s` that ends in `t`, in the order of R63's pseudocode. -/
def cycleOutcome (s t : State) : CycleOutcome :=
  match s.fault with
  | some e => .faulted e
  | none =>
    if s.awaiting.isSome then .awaitingKey
    else
      match t.fault with
      | some e => .error e
      | none => if t.awaiting.isSome then .awaitingKey else .ok

/-- An operation of the host that may change the state (R123). `isAwaitingKey` and `inspectState` change nothing (R124, R127). -/
inductive HostOp where
  /-- `runOneCycle()`. -/
  | runOneCycle
  /-- `reset()`. -/
  | reset
  /-- `loadProgram(bytes)`. -/
  | loadProgram (image : List Byte)
  /-- `supplyKey(k)`. -/
  | supplyKey (k : Nat)
  /-- `TickTimers()`. -/
  | tickTimers
  deriving DecidableEq, Repr

/-- One operation of the host. -/
def perform (op : HostOp) (s : State) : Host.Outcome State Fault Refusal :=
  match op with
  | .runOneCycle => step s
  | .reset => .next (hostReset s)
  | .loadProgram image => Sys2Proof.Machine.loadProgram image s
  | .supplyKey k => Sys2Proof.Machine.supplyKey k s
  | .tickTimers => .next (tickTimers s)

/-- A run: "any sequence of cycles and host operations" (40_cycle.md R75). A `loadProgram` that is turned down leaves the state as it
was and the run goes on (R135); a refused call has no step, so no run goes through it (R125). -/
def runOps : List HostOp → State → Option State
  | [], s => some s
  | op :: ops, s =>
    match perform op s with
    | .next t => runOps ops t
    | .fault _ => runOps ops s
    | .refused _ => none

end Sys2Proof.Machine
end

