-- ==== Sys2Proof/Safety.lean ====
section
/-! DEFINITION. The words the claims are stated in: what a state keeps, the machine's invariant, and what counts as a sound run. -/

namespace Sys2Proof.Machine

/-- Neither wait is set, so a cycle fetches (40_cycle.md R63). -/
abbrev Ready (s : State) : Prop := s.fault = none ∧ s.awaiting = none

/-- A part of the state, for frames. -/
inductive Part where
  | mem | v | i | pc | stack | dt | st | awaiting | fault
  /-- What was asked of the collaborators and the index of the next answer. -/
  | calls
  deriving DecidableEq, Repr

/-- Part `p` of `t` is as in `s`. Memory is compared byte by byte, through the model's read of one byte, at every address. -/
def Keeps (p : Part) (s t : State) : Prop :=
  match p with
  | .mem => ∀ a, Memory.get t.mem a = Memory.get s.mem a
  | .v => ∀ r, t.getV r = s.getV r
  | .i => t.i = s.i
  | .pc => t.pc = s.pc
  | .stack => t.stack = s.stack
  | .dt => t.dt = s.dt
  | .st => t.st = s.st
  | .awaiting => t.awaiting = s.awaiting
  | .fault => t.fault = s.fault
  | .calls => t.calls = s.calls ∧ t.draws = s.draws

/-- The frame: every part but those listed is as it was, and so are the parameters. -/
def OnlyChanges (ps : List Part) (s t : State) : Prop :=
  (∀ p, p ∉ ps → Keeps p s t) ∧ t.params = s.params

/-- Memory outside the `len` bytes from `base` is as it was. -/
def SameOutside (base len : Nat) (s t : State) : Prop :=
  ∀ a, ¬(base ≤ a ∧ a < base + len) → Memory.get t.mem a = Memory.get s.mem a

/-- `V[x]` becomes `b`; every other register and everything else is kept, but that `pc` is past the instruction. -/
def WritesV (x : Reg) (b : Byte) (s t : State) : Prop :=
  t.getV x = b ∧ (∀ r, r ≠ x → t.getV r = s.getV r) ∧ t.pc = s.pc + 2#16 ∧ OnlyChanges [.v, .pc] s t

/-- The outcome is that the error is raised: nothing is kept of the cycle, and the error is latched (40_cycle.md R72). -/
def Raises (o : Host.Outcome State Fault Refusal) (s : State) (e : CycleError) : Prop :=
  o = .next { s with fault := some e }

/-- What the next cycle from `t` raises where `t.pc` cannot be fetched from (40_cycle.md R65, R66; the order of 60_exceptions.md
R116): the alignment error first, then the first address at or above 0x1000. -/
def NextFetchChecked (t : State) : Prop :=
  Ready t →
    (t.pc.toNat % 2 = 1 → t.params.oddPc = .fault → Raises (step t) t (.misalignedFetch t.pc)) ∧
    (¬(t.pc.toNat % 2 = 1 ∧ t.params.oddPc = .fault) → 0xFFF ≤ t.pc.toNat →
      Raises (step t) t (.outOfBoundsAccess t.pc (max t.pc.toNat 0x1000)))

/-- The machine's invariant: what reset establishes and every cycle and every host operation keeps. -/
structure Inv (s : State) : Prop where
  /-- Memory is in canonical form, every listed address below 0x1000. -/
  memory : Memory.wf s.mem
  /-- The depth is at most 16 (10_state.md R28). -/
  depth : s.stack.length ≤ 16
  /-- A return address is a fetch address + 2, so at most 0x1000 (41_control_flow.md R80). -/
  returns : ∀ w ∈ s.stack, w.toNat ≤ 0x1000
  /-- `pc` never comes near a wrap (10_state.md R26). -/
  pcBound : s.pc.toNat ≤ 0x10FE
  /-- "The fault latch and `awaiting` are never both set" (60_exceptions.md R125). -/
  oneWait : s.fault = none ∨ s.awaiting = none

/-- A sound step: it answers a next state in which the invariant holds. -/
def SoundStep (s : State) : Prop := ∃ t, step s = .next t ∧ Inv t

end Sys2Proof.Machine
end

