-- ==== Sys2Proof/Certificates/Slice0/Obligations.lean ====
section
/-! DEFINITION. The statements for the provers. Every `def Obligations.<Name> : Prop` formalises the rules its docstring names; the
parameters (`FONT_BASE`, the policies, `RESERVED_IMAGE`) and the free answers are universally quantified through the state. Where a
clause rests on a choice the spec marks as its own (a D<n> of 92_eei_decisions.md; log 15), the title in OBLIGATIONS.json names it. -/

open Sys2Proof Sys2Proof.Machine

/-! ### Encoding and decode (30_encoding.md) -/

/-- Words written out from R53, R54, R55, R56, R57 and R61 decode to the instructions they stand for; 0x6A3C is the source's own. -/
def Obligations.SpecWordsDecode : Prop :=
  decode 0x6A3C#16 = .ok (.ldImm 10 0x3C#8) ∧ decode 0x00E0#16 = .ok .cls ∧ decode 0x00EE#16 = .ok .ret ∧
  decode 0x00E1#16 = .ok (.sys 0x0E1#12) ∧ decode 0x2ABC#16 = .ok (.call 0xABC#12) ∧
  decode 0x5AB7#16 = .ok (.seReg 10 11) ∧ decode 0x8AB7#16 = .ok (.subn 10 11) ∧ decode 0x8AB8#16 = .error (.noPattern 0x8AB8#16) ∧
  decode 0xD12F#16 = .ok (.drw 1 2 0xF#4) ∧ decode 0xE3A1#16 = .ok (.sknp 3) ∧ decode 0xFA65#16 = .ok (.load 10)

/-- Every well-formed instruction, with every operand at every value its field admits, is what its word decodes to (R49 to R57). -/
def Obligations.DecodeEncodeAgree : Prop :=
  ∀ i : Instr, i.wellFormed = true →
    decode (encode i) = .ok i ∧ decodeBytes (encodeBytes i) = .ok (i, [])

/-- A decoded instruction is well formed, and its word is the word decoded, but that N of 5xyN and 9xyN is not examined (R57). -/
def Obligations.EncodeDecodeAgree : Prop :=
  ∀ (w : Word) (i : Instr), decode w = .ok i →
    i.wellFormed = true ∧
    (encode i = w ∨ ((fieldF w = 0x5#4 ∨ fieldF w = 0x9#4) ∧ encode i = w &&& 0xFFF0#16))

/-- R58: exactly the words of three families fail, and a failure carries the word. -/
def Obligations.DecodeFailsExactlyOn : Prop :=
  (∀ w : Word, (∃ e, decode w = .error e) ↔
    (fieldF w = 0x8#4 ∧ fieldN w ∈ [0x8#4, 0x9#4, 0xA#4, 0xB#4, 0xC#4, 0xD#4, 0xF#4]) ∨
    (fieldF w = 0xE#4 ∧ fieldKK w ∉ [0x9E#8, 0xA1#8]) ∨
    (fieldF w = 0xF#4 ∧
      fieldKK w ∉ [0x07#8, 0x0A#8, 0x15#8, 0x18#8, 0x1E#8, 0x29#8, 0x33#8, 0x55#8, 0x65#8])) ∧
  (∀ (w : Word) (e : DecodeReject), decode w = .error e → e = .noPattern w)

/-- R61: a word decodes exactly when it selects a row of the opcode map, to an instruction of a row it selects; and no two rows overlap
but the catch-all row 0nnn with 00E0 and 00EE, where it does not apply. -/
def Obligations.OpcodeMapIsUnambiguous : Prop :=
  (∀ (w : Word) (i : Instr), decode w = .ok i → selectsRow w i = true) ∧
  (∀ (w : Word) (j : Instr), selectsRow w j = true →
    ∃ i, decode w = .ok i ∧
      (opcodeRow i = opcodeRow j ∨ (opcodeRow j = (0xF000#16, 0x0000#16) ∧ (i = .cls ∨ i = .ret))))

/-! ### The cycle (40_cycle.md) -/

/-- R63, R67, R69: where neither wait is set and the fetch from `pc` is allowed, a step is the meaning of the decoded instruction at
the state of the cycle's start, and nothing is added around it. The word is big-endian (20_memory.md R38). -/
def Obligations.StepRunsDecodedInstruction : Prop :=
  ∀ (s : State) (i : Instr), Ready s → s.pc.toNat ≤ 0xFFE → ¬(s.pc.toNat % 2 = 1 ∧ s.params.oddPc = .fault) →
    decode (Memory.get s.mem s.pc.toNat ++ Memory.get s.mem (s.pc.toNat + 1)) = .ok i →
    step s = exec i s

/-- R65 and R66: the alignment check, the range check with the first bad address, and the fetch of two bytes. -/
def Obligations.FetchReadsTwoBytesOrRaises : Prop :=
  ∀ s : State,
    NextFetchChecked s ∧
    (s.pc.toNat ≤ 0xFFE → ¬(s.pc.toNat % 2 = 1 ∧ s.params.oddPc = .fault) →
      fetchWord s = .ok (Memory.get s.mem s.pc.toNat ++ Memory.get s.mem (s.pc.toNat + 1)))

/-- R68: a word that fails to decode is raised with the word and the fetch address, and nothing of the execute stage runs. -/
def Obligations.DecodeFailureIsRaised : Prop :=
  ∀ (s : State) (w : Word) (e : DecodeReject), Ready s → fetchWord s = .ok w → decode w = .error e →
    Raises (step s) s (.decodeFailure w s.pc)

/-- R72 (and R64): a cycle that raises an error commits nothing but the latch, has called no collaborator, reports the fetch address, and
every later cycle answers `Faulted` and changes nothing. -/
def Obligations.ErringCycleCommitsNothing : Prop :=
  ∀ (s t : State) (e : CycleError), s.fault = none → step s = .next t → t.fault = some e →
    t = { s with fault := some e } ∧ e.pcFetch = s.pc ∧ cycleOutcome s t = .error e ∧
    step t = .next t ∧ cycleOutcome t t = .faulted e

/-- R119: while the latch is set every cycle answers `Faulted` with the same error and changes nothing, no operation but `reset()`
clears or changes the latch, and `reset()` clears it. -/
def Obligations.LatchHoldsUntilReset : Prop :=
  ∀ (s : State) (e : CycleError), s.fault = some e →
    step s = .next s ∧ cycleOutcome s s = .faulted e ∧
    (∀ (op : HostOp) (t : State), op ≠ .reset → perform op s = .next t → t.fault = some e) ∧
    (∃ t, perform .reset s = .next t ∧ t.fault = none)

/-- Every step from every state answers a next state: no cycle ends in a fault or a refusal (derived from R63, R72, R73). -/
def Obligations.EveryStepAnswersNext : Prop :=
  ∀ s : State, ∃ t, step s = .next t

/-- R76, R86: a cycle that executes a jump to its own address leaves the whole state as it was. -/
def Obligations.SpinLeavesStateUnchanged : Prop :=
  ∀ (s : State) (nnn : Addr12), Ready s → ¬(s.pc.toNat % 2 = 1 ∧ s.params.oddPc = .fault) → s.pc.toNat ≤ 0xFFE →
    s.pc.toNat = nnn.toNat →
    Memory.get s.mem s.pc.toNat ++ Memory.get s.mem (s.pc.toNat + 1) = formatA 0x1#4 nnn →
    step s = .next s

/-! ### Control flow (41_control_flow.md) -/

/-- R77: `JP nnn`. -/
def Obligations.JumpSetsPc : Prop :=
  ∀ (nnn : Addr12) (s : State),
    decode (formatA 0x1#4 nnn) = .ok (.jp nnn) ∧
    ∃ t, exec (.jp nnn) s = .next t ∧ t.pc.toNat = nnn.toNat ∧ OnlyChanges [.pc] s t ∧ NextFetchChecked t

/-- R78: `JP V0, nnn`. The sum is exact: not masked, never wrapping. -/
def Obligations.JumpPlusV0AddsV0 : Prop :=
  ∀ (nnn : Addr12) (s : State),
    decode (formatA 0xB#4 nnn) = .ok (.jpV0 nnn) ∧
    ∃ t, exec (.jpV0 nnn) s = .next t ∧ t.pc.toNat = nnn.toNat + (s.getV 0).toNat ∧ t.pc.toNat ≤ 0x10FE ∧
      OnlyChanges [.pc] s t ∧ NextFetchChecked t

/-- R79: `CALL nnn` pushes the address of the word after it; at depth 16 it raises `StackOverflow` and changes nothing else. -/
def Obligations.CallPushesReturnAddress : Prop :=
  ∀ (nnn : Addr12) (s : State),
    decode (formatA 0x2#4 nnn) = .ok (.call nnn) ∧
    (s.stack.length < 16 →
      ∃ t, exec (.call nnn) s = .next t ∧ t.stack = s.stack ++ [s.pc + 2#16] ∧ t.pc.toNat = nnn.toNat ∧
        OnlyChanges [.stack, .pc] s t) ∧
    (s.stack.length = 16 → Raises (exec (.call nnn) s) s (.stackOverflow s.pc))

/-- R80: `RET` pops into `pc`; on an empty stack it raises `StackUnderflow` and changes nothing else. -/
def Obligations.ReturnPopsPc : Prop :=
  decode 0x00EE#16 = .ok .ret ∧
  ∀ s : State,
    (∀ (rest : List Word) (w : Word), s.stack = rest ++ [w] →
      ∃ t, exec .ret s = .next t ∧ t.pc = w ∧ t.stack = rest ∧ OnlyChanges [.stack, .pc] s t ∧ NextFetchChecked t ∧
        (Inv s → w.toNat ≤ 0x1000)) ∧
    (s.stack = [] → Raises (exec .ret s) s (.stackUnderflow s.pc))

/-- Derived from R79 and R80 (the source's Call/Return property): whatever the subroutine does, a return with the stack as the call left
it comes back to the word after the call, with the stack as it was before the call. -/
def Obligations.CallThenReturnComesBack : Prop :=
  ∀ (nnn : Addr12) (s : State), s.stack.length < 16 →
    ∃ t, exec (.call nnn) s = .next t ∧
      ∀ t' : State, t'.stack = t.stack → ∃ u, exec .ret t' = .next u ∧ u.pc = s.pc + 2#16 ∧ u.stack = s.stack

/-- R81 and R82: the skips on an immediate go by 4 in all where the condition holds and by 2 where it does not. -/
def Obligations.SkipOnImmediate : Prop :=
  ∀ (x : Reg) (kk : Byte) (s : State),
    decode (formatXK 0x3#4 x kk) = .ok (.seImm x kk) ∧ decode (formatXK 0x4#4 x kk) = .ok (.sneImm x kk) ∧
    (∃ t, exec (.seImm x kk) s = .next t ∧ t.pc = (if s.getV x = kk then s.pc + 4#16 else s.pc + 2#16) ∧
      OnlyChanges [.pc] s t ∧ NextFetchChecked t) ∧
    (∃ t, exec (.sneImm x kk) s = .next t ∧ t.pc = (if s.getV x = kk then s.pc + 2#16 else s.pc + 4#16) ∧
      OnlyChanges [.pc] s t ∧ NextFetchChecked t)

/-- R83 and R84: the skips on two registers, for every value of the low nibble, which is not examined. -/
def Obligations.SkipOnRegisters : Prop :=
  ∀ (x y : Reg) (n : Nibble) (s : State),
    decode (formatXY 0x5#4 x y n) = .ok (.seReg x y) ∧ decode (formatXY 0x9#4 x y n) = .ok (.sneReg x y) ∧
    (∃ t, exec (.seReg x y) s = .next t ∧ t.pc = (if s.getV x = s.getV y then s.pc + 4#16 else s.pc + 2#16) ∧
      OnlyChanges [.pc] s t ∧ NextFetchChecked t) ∧
    (∃ t, exec (.sneReg x y) s = .next t ∧ t.pc = (if s.getV x = s.getV y then s.pc + 2#16 else s.pc + 4#16) ∧
      OnlyChanges [.pc] s t ∧ NextFetchChecked t)

/-- R85: every other word of family 0 is `SYS`, which always raises `UnsupportedNativeCall` with the word. -/
def Obligations.SysRaisesUnsupported : Prop :=
  ∀ (nnn : Addr12) (s : State), nnn ≠ 0x0E0#12 → nnn ≠ 0x0EE#12 →
    decode (formatA 0x0#4 nnn) = .ok (.sys nnn) ∧
    Raises (exec (.sys nnn) s) s (.unsupportedNativeCall (formatA 0x0#4 nnn) s.pc)

/-! ### Data operations (42_data_ops.md) -/

/-- R87: `LD Vx, kk`. -/
def Obligations.SetImmediateWritesVx : Prop :=
  ∀ (x : Reg) (kk : Byte) (s : State),
    decode (formatXK 0x6#4 x kk) = .ok (.ldImm x kk) ∧
    ∃ t, exec (.ldImm x kk) s = .next t ∧ WritesV x kk s t

/-- R88: `ADD Vx, kk` wraps mod 256 and never writes VF as a flag. That adding `b` and then `(256 - b) mod 256` gives the register back
is the spec's own inference ("[derived: from this rule]"), from its reading of the source's property (90_conflicts.md C13). -/
def Obligations.AddImmediateWrapsWithoutFlag : Prop :=
  ∀ (x : Reg) (kk : Byte) (s : State),
    decode (formatXK 0x7#4 x kk) = .ok (.addImm x kk) ∧
    ∃ t, exec (.addImm x kk) s = .next t ∧ WritesV x (t.getV x) s t ∧
      (t.getV x).toNat = ((s.getV x).toNat + kk.toNat) % 256 ∧
      ∃ u, exec (.addImm x (BitVec.ofNat 8 (256 - kk.toNat))) t = .next u ∧ ∀ r, u.getV r = s.getV r

/-- R89: `LD Vx, Vy`. -/
def Obligations.CopyRegisterWritesVx : Prop :=
  ∀ (x y : Reg) (s : State),
    decode (formatXY 0x8#4 x y 0x0#4) = .ok (.ldReg x y) ∧
    ∃ t, exec (.ldReg x y) s = .next t ∧ WritesV x (s.getV y) s t

/-- R90, R91 and R92: OR, AND and XOR, bit by bit, with no flag effect. -/
def Obligations.BitwiseOpsHaveNoFlag : Prop :=
  ∀ (x y : Reg) (s : State),
    decode (formatXY 0x8#4 x y 0x1#4) = .ok (.orReg x y) ∧ decode (formatXY 0x8#4 x y 0x2#4) = .ok (.andReg x y) ∧
    decode (formatXY 0x8#4 x y 0x3#4) = .ok (.xorReg x y) ∧
    (∃ t, exec (.orReg x y) s = .next t ∧ WritesV x (t.getV x) s t ∧
      ∀ k < 8, (t.getV x).getLsbD k = ((s.getV x).getLsbD k || (s.getV y).getLsbD k)) ∧
    (∃ t, exec (.andReg x y) s = .next t ∧ WritesV x (t.getV x) s t ∧
      ∀ k < 8, (t.getV x).getLsbD k = ((s.getV x).getLsbD k && (s.getV y).getLsbD k)) ∧
    (∃ t, exec (.xorReg x y) s = .next t ∧ WritesV x (t.getV x) s t ∧
      ∀ k < 8, (t.getV x).getLsbD k = ((s.getV x).getLsbD k ^^ (s.getV y).getLsbD k))

/-- R93: `ADD Vx, Vy`: the sum mod 256, and VF set to 1 on a carry, the flag written last. VF left unchanged without a carry is the
spec's own choice D21 (log 15). -/
def Obligations.AddWithCarrySetsOrLeavesFlag : Prop :=
  ∀ (x y : Reg) (s : State),
    decode (formatXY 0x8#4 x y 0x4#4) = .ok (.addReg x y) ∧
    ∃ t, exec (.addReg x y) s = .next t ∧ t.pc = s.pc + 2#16 ∧ OnlyChanges [.v, .pc] s t ∧
      (∀ r, r ≠ x → r ≠ 15 → t.getV r = s.getV r) ∧
      (255 < (s.getV x).toNat + (s.getV y).toNat → t.getV 15 = 1#8) ∧
      ((s.getV x).toNat + (s.getV y).toNat ≤ 255 → x ≠ 15 → t.getV 15 = s.getV 15) ∧
      (x ≠ 15 ∨ (s.getV x).toNat + (s.getV y).toNat ≤ 255 →
        (t.getV x).toNat = ((s.getV x).toNat + (s.getV y).toNat) % 256)

/-- R94: `SUB Vx, Vy`: the difference mod 256, and VF set to 1 on a borrow, the flag written last. VF left unchanged without a borrow is
the spec's own choice D21 (log 15). -/
def Obligations.SubWithBorrowSetsOrLeavesFlag : Prop :=
  ∀ (x y : Reg) (s : State),
    decode (formatXY 0x8#4 x y 0x5#4) = .ok (.subReg x y) ∧
    ∃ t, exec (.subReg x y) s = .next t ∧ t.pc = s.pc + 2#16 ∧ OnlyChanges [.v, .pc] s t ∧
      (∀ r, r ≠ x → r ≠ 15 → t.getV r = s.getV r) ∧
      ((s.getV x).toNat < (s.getV y).toNat → t.getV 15 = 1#8) ∧
      ((s.getV y).toNat ≤ (s.getV x).toNat → x ≠ 15 → t.getV 15 = s.getV 15) ∧
      (x ≠ 15 ∨ (s.getV y).toNat ≤ (s.getV x).toNat →
        (t.getV x).toNat = ((s.getV x).toNat + 256 - (s.getV y).toNat) % 256)

/-- R95: `SHR Vx, Vy` shifts `V[y]`, and VF always takes the old bit 0 of `V[y]`, written last. -/
def Obligations.ShiftRightCapturesLowBit : Prop :=
  ∀ (x y : Reg) (s : State),
    decode (formatXY 0x8#4 x y 0x6#4) = .ok (.shr x y) ∧
    ∃ t, exec (.shr x y) s = .next t ∧ t.pc = s.pc + 2#16 ∧ OnlyChanges [.v, .pc] s t ∧
      (∀ r, r ≠ x → r ≠ 15 → t.getV r = s.getV r) ∧
      (t.getV 15).toNat = (s.getV y).toNat % 2 ∧ (x ≠ 15 → (t.getV x).toNat = (s.getV y).toNat / 2)

/-- R96: `SUBN Vx, Vy`: `V[y] - V[x]` mod 256, and the flag of each policy, written last. -/
def Obligations.ReverseSubFollowsFlagPolicy : Prop :=
  ∀ (x y : Reg) (s : State),
    decode (formatXY 0x8#4 x y 0x7#4) = .ok (.subn x y) ∧
    ∃ t, exec (.subn x y) s = .next t ∧ t.pc = s.pc + 2#16 ∧ OnlyChanges [.v, .pc] s t ∧
      (∀ r, r ≠ x → r ≠ 15 → t.getV r = s.getV r) ∧
      (x ≠ 15 → (t.getV x).toNat = ((s.getV y).toNat + 256 - (s.getV x).toNat) % 256) ∧
      (s.params.subnFlag = .design →
        ((s.getV y).toNat < (s.getV x).toNat → t.getV 15 = 1#8) ∧
        ((s.getV x).toNat ≤ (s.getV y).toNat → x ≠ 15 → t.getV 15 = s.getV 15) ∧
        ((s.getV x).toNat ≤ (s.getV y).toNat → x = 15 → (t.getV 15).toNat = (s.getV y).toNat - (s.getV x).toNat)) ∧
      (s.params.subnFlag = .canonical →
        t.getV 15 = if (s.getV x).toNat ≤ (s.getV y).toNat then 1#8 else 0#8)

/-- R97: `SHL Vx, Vy` shifts `V[y]`, and VF always takes the old bit 7 of `V[y]`, written last. -/
def Obligations.ShiftLeftCapturesHighBit : Prop :=
  ∀ (x y : Reg) (s : State),
    decode (formatXY 0x8#4 x y 0xE#4) = .ok (.shl x y) ∧
    ∃ t, exec (.shl x y) s = .next t ∧ t.pc = s.pc + 2#16 ∧ OnlyChanges [.v, .pc] s t ∧
      (∀ r, r ≠ x → r ≠ 15 → t.getV r = s.getV r) ∧
      (t.getV 15).toNat = (s.getV y).toNat / 128 ∧ (x ≠ 15 → (t.getV x).toNat = 2 * (s.getV y).toNat % 256)

/-- R98: `ADD I, Vx`: a raw 16-bit sum, VF not written, and no error whatever the sum is. -/
def Obligations.AddToIndexIsRawSixteenBit : Prop :=
  ∀ (x : Reg) (s : State),
    decode (formatXK 0xF#4 x 0x1E#8) = .ok (.addI x) ∧
    ∃ t, exec (.addI x) s = .next t ∧ t.i.toNat = (s.i.toNat + (s.getV x).toNat) % 65536 ∧ t.pc = s.pc + 2#16 ∧
      OnlyChanges [.i, .pc] s t

/-- R99: `LD I, nnn`. -/
def Obligations.SetIndexWritesTwelveBits : Prop :=
  ∀ (nnn : Addr12) (s : State),
    decode (formatA 0xA#4 nnn) = .ok (.ldI nnn) ∧
    ∃ t, exec (.ldI nnn) s = .next t ∧ t.i.toNat = nnn.toNat ∧ t.i.toNat ≤ 0x0FFF ∧ t.pc = s.pc + 2#16 ∧
      OnlyChanges [.i, .pc] s t

/-- R100: `RND Vx, kk`: one call of `RandomByte()`, its free answer masked; a zero mask gives 0 and the call is still made. -/
def Obligations.RandomIsMasked : Prop :=
  ∀ (x : Reg) (kk : Byte) (s : State),
    decode (formatXK 0xC#4 x kk) = .ok (.rnd x kk) ∧
    ∃ t, exec (.rnd x kk) s = .next t ∧ t.getV x = s.randomAnswer &&& kk ∧ (kk = 0#8 → t.getV x = 0#8) ∧
      (kk = 0xFF#8 → t.getV x = s.randomAnswer) ∧
      (∀ r, r ≠ x → t.getV r = s.getV r) ∧ t.calls = s.calls ++ [.randomByte] ∧ t.pc = s.pc + 2#16 ∧
      OnlyChanges [.v, .pc, .calls] s t

/-! ### I/O-adjacent, timers, memory transfer (43_io_adjacent.md) -/

/-- R102: `CLS` makes one `ClearScreen()` request and changes no core state but `pc`; there is no answer, so no draw is used. -/
def Obligations.ClearScreenOnlyRequests : Prop :=
  decode 0x00E0#16 = .ok .cls ∧
  ∀ s : State, ∃ t, exec .cls s = .next t ∧ t.calls = s.calls ++ [.clearScreen] ∧ t.draws = s.draws ∧
    t.pc = s.pc + 2#16 ∧ OnlyChanges [.pc, .calls] s t

/-- R103: `DRW Vx, Vy, n`: out of range it raises before any draw; else one `RequestDraw` with the full coordinates and the `n` bytes
from `I` in ascending order, and VF always 1 or 0 by the answer. A height of 0 reads nothing and cannot fault. -/
def Obligations.DrawSpriteRequestsAndSetsFlag : Prop :=
  ∀ (x y : Reg) (n : Nibble) (s : State),
    decode (formatXY 0xD#4 x y n) = .ok (.drw x y n) ∧
    (n ≠ 0#4 → 0x1000 < s.i.toNat + n.toNat →
      Raises (exec (.drw x y n) s) s (.outOfBoundsAccess s.pc (max s.i.toNat 0x1000))) ∧
    (n = 0#4 ∨ s.i.toNat + n.toNat ≤ 0x1000 →
      ∃ (t : State) (bytes : List Byte), exec (.drw x y n) s = .next t ∧ bytes.length = n.toNat ∧
        (∀ j, j < n.toNat → bytes[j]? = some (Memory.get s.mem (s.i.toNat + j))) ∧
        t.calls = s.calls ++ [.requestDraw (s.getV x) (s.getV y) bytes] ∧
        t.getV 15 = (if s.drawAnswer (s.getV x) (s.getV y) bytes then 1#8 else 0#8) ∧
        (∀ r, r ≠ 15 → t.getV r = s.getV r) ∧ t.pc = s.pc + 2#16 ∧ OnlyChanges [.v, .pc, .calls] s t)

/-- R104 and R105: the key skips ask once and skip on opposite answers. That the full 8-bit `V[x]` is passed, and that its answer is
free for every value, is the spec's own choice D26 (log 15; the form of a free answer is log 7). -/
def Obligations.SkipOnKeyAsksOnce : Prop :=
  ∀ (x : Reg) (s : State),
    decode (formatXK 0xE#4 x 0x9E#8) = .ok (.skp x) ∧ decode (formatXK 0xE#4 x 0xA1#8) = .ok (.sknp x) ∧
    (∃ t, exec (.skp x) s = .next t ∧ t.pc = (if s.keyAnswer (s.getV x) then s.pc + 4#16 else s.pc + 2#16) ∧
      t.calls = s.calls ++ [.isKeyDown (s.getV x)] ∧ OnlyChanges [.pc, .calls] s t ∧ NextFetchChecked t) ∧
    (∃ t, exec (.sknp x) s = .next t ∧ t.pc = (if s.keyAnswer (s.getV x) then s.pc + 2#16 else s.pc + 4#16) ∧
      t.calls = s.calls ++ [.isKeyDown (s.getV x)] ∧ OnlyChanges [.pc, .calls] s t ∧ NextFetchChecked t)

/-- R106 (and R73): `LD Vx, K` sets `awaiting` and moves `pc` on; the cycle answers `AwaitingKey`; further cycles answer it and change
nothing; a supplied key below 16 is written into `V[x]` and ends the wait, with `pc` at the following word. -/
def Obligations.KeyWaitSuspendsUntilSupplied : Prop :=
  ∀ (x : Reg) (s : State),
    decode (formatXK 0xF#4 x 0x0A#8) = .ok (.ldVxK x) ∧
    ∃ t, exec (.ldVxK x) s = .next t ∧ t.awaiting = some x ∧ t.pc = s.pc + 2#16 ∧ OnlyChanges [.awaiting, .pc] s t ∧
      step t = .next t ∧ (Ready s → cycleOutcome s t = .awaitingKey ∧ cycleOutcome t t = .awaitingKey) ∧
      ∀ k, k < 16 → ∃ u, supplyKey k t = .next u ∧ (u.getV x).toNat = k ∧ (∀ r, r ≠ x → u.getV r = s.getV r) ∧
        u.awaiting = none ∧ u.pc = s.pc + 2#16 ∧ OnlyChanges [.v, .awaiting] t u

/-- R107, R108 and R109: the timer copies. -/
def Obligations.TimerCopiesMoveOneByte : Prop :=
  ∀ (x : Reg) (s : State),
    decode (formatXK 0xF#4 x 0x07#8) = .ok (.ldVxDt x) ∧ decode (formatXK 0xF#4 x 0x15#8) = .ok (.ldDtVx x) ∧
    decode (formatXK 0xF#4 x 0x18#8) = .ok (.ldStVx x) ∧
    (∃ t, exec (.ldVxDt x) s = .next t ∧ WritesV x s.dt s t) ∧
    (∃ t, exec (.ldDtVx x) s = .next t ∧ t.dt = s.getV x ∧ t.pc = s.pc + 2#16 ∧ OnlyChanges [.dt, .pc] s t) ∧
    (∃ t, exec (.ldStVx x) s = .next t ∧ t.st = s.getV x ∧ t.pc = s.pc + 2#16 ∧ OnlyChanges [.st, .pc] s t)

/-- R110: `LD F, Vx`: `FONT_BASE + 5 * V[x]` with the full 8-bit value, for every font base the parameter admits; the sum never
wraps. -/
def Obligations.LoadSpriteAddressUsesWholeByte : Prop :=
  ∀ (x : Reg) (s : State),
    decode (formatXK 0xF#4 x 0x29#8) = .ok (.ldF x) ∧ s.params.fontBase.val + 80 ≤ 0x200 ∧
    ∃ t, exec (.ldF x) s = .next t ∧ t.i.toNat = s.params.fontBase.val + 5 * (s.getV x).toNat ∧ t.pc = s.pc + 2#16 ∧
      OnlyChanges [.i, .pc] s t

/-- R111: `LD B, Vx`: the three decimal digits, hundreds at `I`; out of range nothing is written. The addresses rise in memory's
canonical form, which every run keeps (`Inv`). -/
def Obligations.StoreBcdWritesThreeDigits : Prop :=
  ∀ (x : Reg) (s : State), Inv s →
    decode (formatXK 0xF#4 x 0x33#8) = .ok (.ldB x) ∧
    (0x1000 ≤ s.i.toNat + 2 → Raises (exec (.ldB x) s) s (.outOfBoundsAccess s.pc (max s.i.toNat 0x1000))) ∧
    (s.i.toNat + 2 < 0x1000 →
      ∃ t, exec (.ldB x) s = .next t ∧
        (Memory.get t.mem s.i.toNat).toNat = (s.getV x).toNat / 100 ∧
        (Memory.get t.mem (s.i.toNat + 1)).toNat = (s.getV x).toNat / 10 % 10 ∧
        (Memory.get t.mem (s.i.toNat + 2)).toNat = (s.getV x).toNat % 10 ∧
        SameOutside s.i.toNat 3 s t ∧ t.pc = s.pc + 2#16 ∧ OnlyChanges [.mem, .pc] s t)

/-- R112: `LD [I], Vx`: `V[0]` to `V[x]` stored from `I`, `I` unchanged; out of range no byte is written. -/
def Obligations.DumpStoresRegisters : Prop :=
  ∀ (x : Reg) (s : State), Inv s →
    decode (formatXK 0xF#4 x 0x55#8) = .ok (.dump x) ∧
    (0x1000 ≤ s.i.toNat + x.val → Raises (exec (.dump x) s) s (.outOfBoundsAccess s.pc (max s.i.toNat 0x1000))) ∧
    (s.i.toNat + x.val < 0x1000 →
      ∃ t, exec (.dump x) s = .next t ∧ (∀ r : Reg, r ≤ x → Memory.get t.mem (s.i.toNat + r.val) = s.getV r) ∧
        SameOutside s.i.toNat (x.val + 1) s t ∧ t.pc = s.pc + 2#16 ∧ OnlyChanges [.mem, .pc] s t)

/-- R113: `LD Vx, [I]`: `V[0]` to `V[x]` loaded from `I`, `I` unchanged; out of range no register is written. -/
def Obligations.LoadReadsRegisters : Prop :=
  ∀ (x : Reg) (s : State),
    decode (formatXK 0xF#4 x 0x65#8) = .ok (.load x) ∧
    (0x1000 ≤ s.i.toNat + x.val → Raises (exec (.load x) s) s (.outOfBoundsAccess s.pc (max s.i.toNat 0x1000))) ∧
    (s.i.toNat + x.val < 0x1000 →
      ∃ t, exec (.load x) s = .next t ∧ (∀ r : Reg, r ≤ x → t.getV r = Memory.get s.mem (s.i.toNat + r.val)) ∧
        (∀ r : Reg, x < r → t.getV r = s.getV r) ∧ t.pc = s.pc + 2#16 ∧ OnlyChanges [.v, .pc] s t)

/-- Derived from R112 and R113: a dump and then, whatever the registers and the program counter have become, a load of as many
registers from the same `I` gives the registers back. -/
def Obligations.DumpThenLoadRestores : Prop :=
  ∀ (x : Reg) (s : State), Inv s → s.i.toNat + x.val < 0x1000 →
    ∃ t, exec (.dump x) s = .next t ∧
      ∀ t' : State, t'.mem = t.mem → t'.i = t.i →
        ∃ u, exec (.load x) t' = .next u ∧ ∀ r : Reg, r ≤ x → u.getV r = s.getV r

/-- R46 and R139: a byte that `LD [I], Vx` writes is what the very next fetch reads, when the word after the store lies in the block. -/
def Obligations.StoreIsSeenByNextFetch : Prop :=
  ∀ (x r : Reg) (s : State), Inv s → s.i.toNat + x.val < 0x1000 → r.val + 1 ≤ x.val →
    (s.pc + 2#16).toNat = s.i.toNat + r.val → ¬((s.pc + 2#16).toNat % 2 = 1 ∧ s.params.oddPc = .fault) →
    ∃ t, exec (.dump x) s = .next t ∧ fetchWord t = .ok (s.getV r ++ s.getV (r + 1))

/-! ### Reset and the host interface (60_exceptions.md, 70_reset_and_hazards.md) -/

/-- R33: the state after reset, under the default parameters. -/
def Obligations.ResetStateIsZero : Prop :=
  (∀ a, Memory.get State.reset.mem a = 0#8) ∧ (∀ r, State.reset.getV r = 0#8) ∧ State.reset.i = 0#16 ∧
  State.reset.pc = 0x0000#16 ∧ State.reset.stack = [] ∧ State.reset.dt = 0#8 ∧ State.reset.st = 0#8 ∧
  State.reset.awaiting = none ∧ State.reset.fault = none

/-- R133: `reset()` from any state, for any `RESERVED_IMAGE`; and it alone clears the fault latch. The 0 in `pc` (D2), the reserved
area's content (D7) and the latch (D4) are the spec's own choices (log 15); 0 past the end of a short image is the model's (log 3). -/
def Obligations.HostResetRestoresEverything : Prop :=
  (∀ s : State, ∃ t, perform .reset s = .next t ∧
    (∀ a, a < 0x200 → Memory.get t.mem a = s.params.reservedImage.getD a 0#8) ∧
    (∀ a, 0x200 ≤ a → Memory.get t.mem a = 0#8) ∧
    (∀ r, t.getV r = 0#8) ∧ t.i = 0#16 ∧ t.dt = 0#8 ∧ t.st = 0#8 ∧ t.pc = 0x0000#16 ∧ t.stack = [] ∧
    t.awaiting = none ∧ t.fault = none) ∧
  (∀ (s t : State) (op : HostOp), s.fault ≠ none → perform op s = .next t → t.fault = none → op = .reset)

/-- R135: `loadProgram(bytes)`: at most 3584 bytes go to 0x200 and `pc` to 0x200; a longer image is rejected. -/
def Obligations.LoadProgramPlacesImage : Prop :=
  ∀ (image : List Byte) (s : State), Inv s →
    (3584 < image.length → perform (.loadProgram image) s = .fault (.programTooLarge image.length) ∧
      runOps [.loadProgram image] s = some s) ∧
    (image.length ≤ 3584 →
      ∃ t, perform (.loadProgram image) s = .next t ∧ t.pc = 0x200#16 ∧
        (∀ j, j < image.length → some (Memory.get t.mem (0x200 + j)) = image[j]?) ∧
        SameOutside 0x200 image.length s t ∧ OnlyChanges [.mem, .pc] s t)

/-- R136: after `reset()` and `loadProgram(image)` the first cycle fetches the word at 0x200; without the load, under the default
`RESERVED_IMAGE`, the first cycle raises `UnsupportedNativeCall`. -/
def Obligations.FirstCycleFetchesEntryPoint : Prop :=
  (∀ (s : State) (hi lo : Byte) (rest : List Byte), (hi :: lo :: rest).length ≤ 3584 →
    ∃ t, runOps [.reset, .loadProgram (hi :: lo :: rest)] s = some t ∧ Ready t ∧ t.pc = 0x200#16 ∧
      fetchWord t = .ok (hi ++ lo)) ∧
  (∀ s : State, s.params.reservedImage = [] →
    ∃ t, runOps [.reset] s = some t ∧ Raises (step t) t (.unsupportedNativeCall 0x0000#16 0x0000#16))

/-- R126: `TickTimers()`, in any state: each nonzero timer one less, and nothing else changes. -/
def Obligations.TickTimersClampAtZero : Prop :=
  ∀ s : State, ∃ t, perform .tickTimers s = .next t ∧ t.dt.toNat = s.dt.toNat - 1 ∧ t.st.toNat = s.st.toNat - 1 ∧
    OnlyChanges [.dt, .st] s t

/-- R125: `supplyKey(k)`: with a wait pending it writes the key and ends the wait; with none pending it has no effect; `k >= 16` is
refused; and the latch and `awaiting` are never both set, in any run from a state of the invariant. -/
def Obligations.SupplyKeyEndsPendingWait : Prop :=
  (∀ (k : Nat) (s : State) (x : Reg), k < 16 → s.awaiting = some x →
    ∃ t, supplyKey k s = .next t ∧ (t.getV x).toNat = k ∧ (∀ r, r ≠ x → t.getV r = s.getV r) ∧ t.awaiting = none ∧
      OnlyChanges [.v, .awaiting] s t) ∧
  (∀ (k : Nat) (s : State), k < 16 → s.awaiting = none → supplyKey k s = .next s) ∧
  (∀ (k : Nat) (s : State), 16 ≤ k → supplyKey k s = .refused (.keyOutOfRange k)) ∧
  (∀ (ops : List HostOp) (s t : State), Inv s → runOps ops s = some t → t.fault = none ∨ t.awaiting = none)

/-- R124 and R127: `isAwaitingKey()` and the snapshot of `inspectState()`. Both are functions of the state alone, with no next state. -/
def Obligations.InspectStateShowsWholeState : Prop :=
  ∀ s : State,
    (isAwaitingKey s = true ↔ s.awaiting ≠ none) ∧
    (inspectState s).mem.length = 4096 ∧ (∀ a, a < 4096 → (inspectState s).mem[a]? = some (Memory.get s.mem a)) ∧
    (inspectState s).v = s.v ∧ (inspectState s).i = s.i ∧ (inspectState s).pc = s.pc ∧ (inspectState s).stack = s.stack ∧
    (inspectState s).dt = s.dt ∧ (inspectState s).st = s.st ∧ (inspectState s).awaiting = s.awaiting ∧
    (inspectState s).fault = s.fault

/-! ### Whole-machine rules -/

/-- The invariant holds after reset. -/
def Obligations.ResetMeetsInvariant : Prop := Inv State.reset

/-- Every cycle, of every instruction and of every error, keeps the invariant: canonical memory, a stack of at most 16 entries each at
most 0x1000, a `pc` of at most 0x10FE, never both waits (R26, R28, R80, R125). -/
def Obligations.StepKeepsInvariant : Prop :=
  ∀ s : State, Inv s → SoundStep s

/-- Every sequence of cycles and host operations keeps the invariant (R75). -/
def Obligations.EveryRunKeepsInvariant : Prop :=
  ∀ (ops : List HostOp) (s t : State), Inv s → runOps ops s = some t → Inv t

/-- R26: `pc` never wraps: the fetch advance and a skip are exact, and what a cycle leaves is at most 0x10FE. -/
def Obligations.PcNeverWraps : Prop :=
  ∀ s t : State, Inv s → step s = .next t →
    t.pc.toNat ≤ 0x10FE ∧
    (∀ w, fetchWord s = .ok w → (s.pc + 2#16).toNat = s.pc.toNat + 2 ∧ (s.pc + 4#16).toNat = s.pc.toNat + 4 ∧
      s.pc.toNat + 4 ≤ 0x1002)

/-- R23, R28, R29, R30, R35, R130: which instructions can change each part of the state. -/
def Obligations.WritersOfEachPart : Prop :=
  ∀ (i : Instr) (s t : State), exec i s = .next t →
    (t.i ≠ s.i → (∃ nnn, i = .ldI nnn) ∨ (∃ x, i = .addI x) ∨ (∃ x, i = .ldF x)) ∧
    (t.stack ≠ s.stack → (∃ nnn, i = .call nnn) ∨ i = .ret) ∧
    (t.dt ≠ s.dt → ∃ x, i = .ldDtVx x) ∧
    (t.st ≠ s.st → ∃ x, i = .ldStVx x) ∧
    (t.awaiting ≠ s.awaiting → ∃ x, i = .ldVxK x) ∧
    (t.mem ≠ s.mem → (∃ x, i = .ldB x) ∨ (∃ x, i = .dump x)) ∧
    (t.calls ≠ s.calls → i = .cls ∨ (∃ x kk, i = .rnd x kk) ∨ (∃ x y n, i = .drw x y n) ∨ (∃ x, i = .skp x) ∨ (∃ x, i = .sknp x)) ∧
    t.params = s.params

/-- R22 and R27: which register an instruction can change: `V[x]` of the listed forms, `V[0]` to `V[x]` of Fx65, and VF of the
flag-writing ones. (Fx0A writes at `supplyKey`.) -/
def Obligations.WritersOfEachRegister : Prop :=
  ∀ (i : Instr) (s t : State) (r : Reg), exec i s = .next t → t.getV r ≠ s.getV r →
    (∃ kk, i = .ldImm r kk ∨ i = .addImm r kk ∨ i = .rnd r kk) ∨
    (∃ y, i = .ldReg r y ∨ i = .orReg r y ∨ i = .andReg r y ∨ i = .xorReg r y ∨ i = .addReg r y ∨ i = .subReg r y ∨
      i = .shr r y ∨ i = .subn r y ∨ i = .shl r y) ∨
    i = .ldVxDt r ∨ (∃ x, r ≤ x ∧ i = .load x) ∨
    (r = 15 ∧ ∃ x y, i = .addReg x y ∨ i = .subReg x y ∨ i = .shr x y ∨ i = .subn x y ∨ i = .shl x y ∨ ∃ n, i = .drw x y n)

/-- R29 and R32: no instruction reads `ST`, `awaiting` or the fault latch: with other values of them, an instruction that runs to its end
gives the same next state but for those values (where it does not itself write them). -/
def Obligations.SoundTimerAndWaitsAreNeverRead : Prop :=
  ∀ (i : Instr) (s t : State) (st' : Byte) (aw : Option Reg) (fl : Option CycleError), exec i s = .next t →
    ∃ u, exec i { s with st := st', awaiting := aw, fault := fl } = .next u ∧
      u = { t with st := u.st, awaiting := u.awaiting, fault := u.fault } ∧
      (u.st = st' ∨ ∃ x, i = .ldStVx x ∧ u.st = s.getV x) ∧
      (u.awaiting = aw ∨ ∃ x, i = .ldVxK x ∧ u.awaiting = some x) ∧
      (u.fault = fl ∨ ∃ e, u.fault = some e ∧ t.fault = some e)
end

