-- ==== Sys2Proof/Laws/Decode.lean ====
section
/-! SUPPORT. The bits and the fields of the formats (30_encoding.md R49, R50), and the word rebuilt from its bytes and fields. -/

namespace Sys2Proof

/-! ### Bits of the formats, bit 0 the least significant -/

theorem getLsbD_formatA (f : Nibble) (nnn : Addr12) (i : Nat) :
    (formatA f nnn).getLsbD i = if i < 12 then nnn.getLsbD i else f.getLsbD (i - 12) := BitVec.getLsbD_append

theorem getLsbD_formatXK (f : Nibble) (x : Reg) (kk : Byte) (i : Nat) :
    (formatXK f x kk).getLsbD i =
      if i < 8 then kk.getLsbD i
      else if i - 8 < 4 then (BitVec.ofFin (w := 4) x).getLsbD (i - 8) else f.getLsbD (i - 8 - 4) := by
  have h : (formatXK f x kk).getLsbD i =
      if i < 8 then kk.getLsbD i else (f ++ BitVec.ofFin (w := 4) x).getLsbD (i - 8) := BitVec.getLsbD_append
  rw [h, BitVec.getLsbD_append]

theorem getLsbD_formatXY (f : Nibble) (x y : Reg) (n : Nibble) (i : Nat) :
    (formatXY f x y n).getLsbD i =
      if i < 4 then n.getLsbD i
      else if i - 4 < 4 then (BitVec.ofFin (w := 4) y).getLsbD (i - 4)
      else if i - 4 - 4 < 4 then (BitVec.ofFin (w := 4) x).getLsbD (i - 4 - 4) else f.getLsbD (i - 4 - 4 - 4) := by
  have h : (formatXY f x y n).getLsbD i =
      if i < 4 then n.getLsbD i
      else (f ++ BitVec.ofFin (w := 4) x ++ BitVec.ofFin (w := 4) y).getLsbD (i - 4) := BitVec.getLsbD_append
  rw [h, BitVec.getLsbD_append, BitVec.getLsbD_append]

theorem getLsbD_wordOfBytes (hi lo : Byte) (i : Nat) :
    (wordOfBytes hi lo).getLsbD i = if i < 8 then lo.getLsbD i else hi.getLsbD (i - 8) := BitVec.getLsbD_append

/-- A register field whose four bits are a register's number is that register. -/
theorem toFin_eq_of_bits {b : Nibble} {x : Reg} (h : ∀ i < 4, b.getLsbD i = (BitVec.ofFin (w := 4) x).getLsbD i) :
    b.toFin = x := by
  rw [BitVec.eq_of_getLsbD_eq h]

/-- The bits of a register field are the field's bits of the word. -/
theorem getLsbD_fieldX (w : Word) (i : Nat) :
    (BitVec.ofFin (w := 4) (fieldX w)).getLsbD i = (decide (i < 4) && w.getLsbD (8 + i)) :=
  BitVec.getLsbD_extractLsb' 8 4 w i

theorem getLsbD_fieldY (w : Word) (i : Nat) :
    (BitVec.ofFin (w := 4) (fieldY w)).getLsbD i = (decide (i < 4) && w.getLsbD (4 + i)) :=
  BitVec.getLsbD_extractLsb' 4 4 w i

/-! ### Format A -/

@[simp] theorem fieldF_formatA (f : Nibble) (nnn : Addr12) : fieldF (formatA f nnn) = f := by
  apply BitVec.eq_of_getLsbD_eq
  intro i hi
  interval_cases i <;> simp [fieldF, getLsbD_formatA, BitVec.getLsbD_extractLsb', -BitVec.getLsbD_eq_getElem]

@[simp] theorem fieldNNN_formatA (f : Nibble) (nnn : Addr12) : fieldNNN (formatA f nnn) = nnn := by
  apply BitVec.eq_of_getLsbD_eq
  intro i hi
  simp only [fieldNNN, getLsbD_formatA, BitVec.getLsbD_extractLsb', hi, decide_true, Bool.true_and, Nat.zero_add, if_true]

/-! ### Formats XK and XS -/

@[simp] theorem fieldF_formatXK (f : Nibble) (x : Reg) (kk : Byte) : fieldF (formatXK f x kk) = f := by
  apply BitVec.eq_of_getLsbD_eq
  intro i hi
  interval_cases i <;> simp [fieldF, getLsbD_formatXK, BitVec.getLsbD_extractLsb', -BitVec.getLsbD_eq_getElem]

@[simp] theorem fieldX_formatXK (f : Nibble) (x : Reg) (kk : Byte) : fieldX (formatXK f x kk) = x := by
  refine toFin_eq_of_bits fun i hi => ?_
  interval_cases i <;> simp [getLsbD_formatXK, BitVec.getLsbD_extractLsb', -BitVec.getLsbD_eq_getElem]

@[simp] theorem fieldKK_formatXK (f : Nibble) (x : Reg) (kk : Byte) : fieldKK (formatXK f x kk) = kk := by
  apply BitVec.eq_of_getLsbD_eq
  intro i hi
  simp only [fieldKK, getLsbD_formatXK, BitVec.getLsbD_extractLsb', hi, decide_true, Bool.true_and, Nat.zero_add, if_true]

/-! ### Formats XY and XYN -/

@[simp] theorem fieldF_formatXY (f : Nibble) (x y : Reg) (n : Nibble) : fieldF (formatXY f x y n) = f := by
  apply BitVec.eq_of_getLsbD_eq
  intro i hi
  interval_cases i <;> simp [fieldF, getLsbD_formatXY, BitVec.getLsbD_extractLsb', -BitVec.getLsbD_eq_getElem]

@[simp] theorem fieldX_formatXY (f : Nibble) (x y : Reg) (n : Nibble) : fieldX (formatXY f x y n) = x := by
  refine toFin_eq_of_bits fun i hi => ?_
  interval_cases i <;> simp [getLsbD_formatXY, BitVec.getLsbD_extractLsb', -BitVec.getLsbD_eq_getElem]

@[simp] theorem fieldY_formatXY (f : Nibble) (x y : Reg) (n : Nibble) : fieldY (formatXY f x y n) = y := by
  refine toFin_eq_of_bits fun i hi => ?_
  interval_cases i <;> simp [getLsbD_formatXY, BitVec.getLsbD_extractLsb', -BitVec.getLsbD_eq_getElem]

@[simp] theorem fieldN_formatXY (f : Nibble) (x y : Reg) (n : Nibble) : fieldN (formatXY f x y n) = n := by
  apply BitVec.eq_of_getLsbD_eq
  intro i hi
  simp only [fieldN, getLsbD_formatXY, BitVec.getLsbD_extractLsb', hi, decide_true, Bool.true_and, Nat.zero_add, if_true]

/-! ### A word from its parts -/

/-- A word is its high byte over its low byte (20_memory.md R38). -/
@[simp] theorem wordOfBytes_split (w : Word) : wordOfBytes (wordHi w) (wordLo w) = w := by
  apply BitVec.eq_of_getLsbD_eq
  intro i hi
  interval_cases i <;>
    simp [getLsbD_wordOfBytes, wordHi, wordLo, BitVec.getLsbD_extractLsb', -BitVec.getLsbD_eq_getElem]

/-- A word is its family nibble over its address field. -/
theorem formatA_fields (w : Word) : formatA (fieldF w) (fieldNNN w) = w := by
  apply BitVec.eq_of_getLsbD_eq
  intro i hi
  interval_cases i <;>
    simp [getLsbD_formatA, fieldF, fieldNNN, BitVec.getLsbD_extractLsb', -BitVec.getLsbD_eq_getElem]

/-- A word is its family nibble, its first register field and its low byte. -/
theorem formatXK_fields (w : Word) : formatXK (fieldF w) (fieldX w) (fieldKK w) = w := by
  apply BitVec.eq_of_getLsbD_eq
  intro i hi
  interval_cases i <;>
    simp [getLsbD_formatXK, getLsbD_fieldX, fieldF, fieldKK, BitVec.getLsbD_extractLsb',
      -BitVec.getLsbD_eq_getElem, -BitVec.getLsbD_ofFin]

/-- A word is its four nibbles. -/
theorem formatXY_fields (w : Word) : formatXY (fieldF w) (fieldX w) (fieldY w) (fieldN w) = w := by
  apply BitVec.eq_of_getLsbD_eq
  intro i hi
  interval_cases i <;>
    simp [getLsbD_formatXY, getLsbD_fieldX, getLsbD_fieldY, fieldF, fieldN, BitVec.getLsbD_extractLsb',
      -BitVec.getLsbD_eq_getElem, -BitVec.getLsbD_ofFin]

end Sys2Proof
end

