-- ==== Sys2Proof/Laws/Memory.lean ====
section
/-! SUPPORT. Memory: read after write, the canonical form, blocks of bytes. -/

namespace Sys2Proof.Machine

@[simp] theorem memSize_eq : Config.memSize = 4096 := rfl
@[simp] theorem progBase_eq : Config.progBase = 512 := rfl
@[simp] theorem progMax_eq : Config.progMax = 3584 := rfl
@[simp] theorem stackDepth_eq : Config.stackDepth = 16 := rfl
@[simp] theorem keyCount_eq : Config.keyCount = 16 := rfl
@[simp] theorem glyphSize_eq : Config.glyphSize = 5 := rfl

/-! ### One byte -/

@[simp] theorem Memory.get_nil (a : Nat) : Memory.get [] a = 0#8 := rfl

/-- An address below every listed one reads as 0. -/
theorem Memory.get_of_lt {m : Memory} {a : Nat} (h : ∀ c ∈ m, a < c.1) : Memory.get m a = 0#8 := by
  induction m with
  | nil => rfl
  | cons c m ih =>
    have hc := h c (by simp)
    simp only [Memory.get, if_neg (Nat.ne_of_lt hc)]
    exact ih fun d hd => h d (by simp [hd])

/-- Read after write, in a memory whose addresses rise. -/
theorem Memory.get_set {m : Memory} (hm : m.Pairwise (fun a b => a.1 < b.1)) (a k : Nat) (b : Byte) :
    Memory.get (Memory.set m a b) k = if k = a then b else Memory.get m k := by
  induction m with
  | nil => by_cases hb : b = 0#8 <;> by_cases hk : k = a <;> simp [Memory.set, Memory.get, hb, hk]
  | cons c m ih =>
    obtain ⟨hc, hm'⟩ := List.pairwise_cons.mp hm
    obtain ⟨c1, c2⟩ := c
    simp only at hc
    rcases Nat.lt_trichotomy a c1 with hlt | heq | hgt
    · have below : Memory.get ((c1, c2) :: m) a = 0#8 := Memory.get_of_lt fun d hd => by
        rcases List.mem_cons.mp hd with rfl | hd
        · exact hlt
        · exact Nat.lt_trans hlt (hc d hd)
      by_cases hb : b = 0#8 <;> by_cases hk : k = a <;> simp_all [Memory.set, Memory.get]
    · subst heq
      have below : Memory.get m a = 0#8 := Memory.get_of_lt hc
      by_cases hb : b = 0#8 <;> by_cases hk : k = a <;> simp_all [Memory.set, Memory.get]
    · simp only [Memory.set, if_neg (Nat.not_lt_of_gt hgt), if_neg (Nat.ne_of_gt hgt), Memory.get, ih hm']
      by_cases hk : k = c1
      · simp [hk, Nat.ne_of_lt hgt]
      · simp [hk]

/-- Every entry of a memory after a write is an old entry or the byte written. -/
theorem Memory.mem_set {m : Memory} {a : Nat} {b : Byte} {c : Host.Cell} (h : c ∈ Memory.set m a b) :
    c ∈ m ∨ (c = (a, b) ∧ b ≠ 0#8) := by
  induction m with
  | nil =>
    by_cases hb : b = 0#8
    · simp [Memory.set, hb] at h
    · simp only [Memory.set, hb, if_false, List.mem_singleton] at h
      exact .inr ⟨h, hb⟩
  | cons d m ih =>
    simp only [Memory.set] at h
    split_ifs at h with h1 h2 h3 h4
    · exact .inl h
    · rcases List.mem_cons.mp h with h | h
      · exact .inr ⟨h, h2⟩
      · exact .inl h
    · exact .inl (List.mem_cons_of_mem _ h)
    · rcases List.mem_cons.mp h with h | h
      · exact .inr ⟨h, h4⟩
      · exact .inl (List.mem_cons_of_mem _ h)
    · rcases List.mem_cons.mp h with h | h
      · exact .inl (h ▸ List.mem_cons_self)
      · exact (ih h).imp (List.mem_cons_of_mem _) id

/-- A write keeps the addresses rising. -/
theorem Memory.pairwise_set {m : Memory} (hm : m.Pairwise (fun a b => a.1 < b.1)) (a : Nat) (b : Byte) :
    (Memory.set m a b).Pairwise (fun a b => a.1 < b.1) := by
  induction m with
  | nil => by_cases hb : b = 0#8 <;> simp [Memory.set, hb]
  | cons c m ih =>
    obtain ⟨hc, hm'⟩ := List.pairwise_cons.mp hm
    simp only [Memory.set]
    split_ifs with h1 h2 h3 h4
    · exact hm
    · refine List.pairwise_cons.mpr ⟨fun d hd => ?_, hm⟩
      rcases List.mem_cons.mp hd with rfl | hd
      · exact h1
      · exact Nat.lt_trans h1 (hc d hd)
    · exact hm'
    · exact List.pairwise_cons.mpr ⟨fun d hd => h3 ▸ hc d hd, hm'⟩
    · refine List.pairwise_cons.mpr ⟨fun d hd => ?_, ih hm'⟩
      rcases Memory.mem_set hd with hd | ⟨rfl, -⟩
      · exact hc d hd
      · simp only; omega

/-- The empty memory, reset's, has the canonical form. -/
theorem Memory.wf_nil : Memory.wf [] := by simp [Memory.wf]

/-- A write inside the address space keeps the canonical form. -/
theorem Memory.wf_set {m : Memory} (hm : Memory.wf m) {a : Nat} (ha : a < Config.memSize) (b : Byte) :
    Memory.wf (Memory.set m a b) := by
  refine ⟨Memory.pairwise_set hm.1 a b, fun c hc => ?_⟩
  rcases Memory.mem_set hc with hc | ⟨rfl, hb⟩
  · exact hm.2 c hc
  · exact ⟨ha, hb⟩

/-- Where the canonical form holds, an address outside the 4096 reads as 0. -/
theorem Memory.get_outside {m : Memory} (hm : Memory.wf m) {a : Nat} (ha : Config.memSize ≤ a) : Memory.get m a = 0#8 := by
  have key : ∀ m : Memory, (∀ c ∈ m, c.1 < Config.memSize) → Memory.get m a = 0#8 := by
    intro m
    induction m with
    | nil => intro _; rfl
    | cons c m ih =>
      intro h
      have hc : a ≠ c.1 := fun e => absurd (h c (by simp)) (by omega)
      simp only [Memory.get, if_neg hc]
      exact ih fun d hd => h d (by simp [hd])
  exact key m fun c hc => (hm.2 c hc).1

/-- Canonical memories that read alike at every address are equal data. -/
theorem Memory.ext_of_get {m₁ m₂ : Memory} (h₁ : Memory.wf m₁) (h₂ : Memory.wf m₂)
    (h : ∀ a, Memory.get m₁ a = Memory.get m₂ a) : m₁ = m₂ := by
  induction m₁ generalizing m₂ with
  | nil =>
    cases m₂ with
    | nil => rfl
    | cons c m₂ => exact absurd (h c.1).symm (by simpa [Memory.get] using (h₂.2 c (by simp)).2)
  | cons c m₁ ih =>
    cases m₂ with
    | nil => exact absurd (h c.1) (by simpa [Memory.get] using (h₁.2 c (by simp)).2)
    | cons d m₂ =>
      obtain ⟨p₁, q₁⟩ := h₁
      obtain ⟨p₂, q₂⟩ := h₂
      obtain ⟨hc, p₁⟩ := List.pairwise_cons.mp p₁
      obtain ⟨hd, p₂⟩ := List.pairwise_cons.mp p₂
      have hcd : c.1 = d.1 := by
        rcases Nat.lt_trichotomy c.1 d.1 with hlt | heq | hlt
        · have hz : Memory.get (d :: m₂) c.1 = 0#8 := Memory.get_of_lt fun e he => by
            rcases List.mem_cons.mp he with rfl | he
            · exact hlt
            · exact Nat.lt_trans hlt (hd e he)
          have := h c.1
          rw [hz] at this
          exact absurd this (by simpa [Memory.get] using (q₁ c (by simp)).2)
        · exact heq
        · have hz : Memory.get (c :: m₁) d.1 = 0#8 := Memory.get_of_lt fun e he => by
            rcases List.mem_cons.mp he with rfl | he
            · exact hlt
            · exact Nat.lt_trans hlt (hc e he)
          have := h d.1
          rw [hz] at this
          exact absurd this.symm (by simpa [Memory.get] using (q₂ d (by simp)).2)
      have hval : c.2 = d.2 := by
        have := h c.1
        simpa [Memory.get, hcd] using this
      have hrest : m₁ = m₂ := by
        refine ih ⟨p₁, fun e he => q₁ e (by simp [he])⟩ ⟨p₂, fun e he => q₂ e (by simp [he])⟩ fun a => ?_
        by_cases ha : a = c.1
        · rw [ha, Memory.get_of_lt hc, Memory.get_of_lt (hcd ▸ hd)]
        · have := h a
          simpa [Memory.get, ha, hcd ▸ ha] using this
      rw [hrest, Prod.ext hcd hval]

/-! ### Blocks -/

@[simp] theorem Memory.length_getRange (m : Memory) (base n : Nat) : (Memory.getRange m base n).length = n := by
  induction n generalizing base with
  | zero => rfl
  | succ n ih => simp [Memory.getRange, ih]

/-- Byte `j` of a block read is the byte at `base + j`. -/
theorem Memory.getElem?_getRange (m : Memory) (base n j : Nat) :
    (Memory.getRange m base n)[j]? = if j < n then some (Memory.get m (base + j)) else none := by
  induction n generalizing base j with
  | zero => simp [Memory.getRange]
  | succ n ih =>
    cases j with
    | zero => simp [Memory.getRange]
    | succ j => simp [Memory.getRange, ih, Nat.add_right_comm, Nat.add_assoc]

/-- The same, by a position in the block. -/
@[simp] theorem Memory.getElem_getRange (m : Memory) (base n j : Nat) (h : j < (Memory.getRange m base n).length) :
    (Memory.getRange m base n)[j] = Memory.get m (base + j) := by
  have hj : j < n := by simpa using h
  have := Memory.getElem?_getRange m base n j
  rw [List.getElem?_eq_getElem h, if_pos hj] at this
  exact Option.some.inj this

/-- A block write keeps the addresses rising. -/
theorem Memory.pairwise_setRange {m : Memory} (hm : m.Pairwise (fun a b => a.1 < b.1)) (base : Nat) (bs : List Byte) :
    (Memory.setRange m base bs).Pairwise (fun a b => a.1 < b.1) := by
  induction bs generalizing m base with
  | nil => exact hm
  | cons b bs ih => exact ih (Memory.pairwise_set hm base b) (base + 1)

/-- Read after a block write: inside the block the byte written, outside the byte held before. -/
theorem Memory.get_setRange {m : Memory} (hm : m.Pairwise (fun a b => a.1 < b.1)) (base : Nat) (bs : List Byte) (a : Nat) :
    Memory.get (Memory.setRange m base bs) a =
      if base ≤ a ∧ a < base + bs.length then bs.getD (a - base) 0#8 else Memory.get m a := by
  induction bs generalizing m base with
  | nil => simp [Memory.setRange, show ¬ (base ≤ a ∧ a < base) by omega]
  | cons b bs ih =>
    rw [Memory.setRange, ih (Memory.pairwise_set hm base b), Memory.get_set hm]
    by_cases h1 : a = base
    · subst h1; simp
    · by_cases h2 : base + 1 ≤ a ∧ a < base + 1 + bs.length
      · have e : a - base = (a - (base + 1)) + 1 := by omega
        rw [if_pos h2, if_pos (by simp only [List.length_cons]; omega), e, List.getD_cons_succ]
      · rw [if_neg h2, if_neg h1, if_neg (by simp only [List.length_cons]; omega)]

/-- A block write inside the address space keeps the canonical form. -/
theorem Memory.wf_setRange {m : Memory} (hm : Memory.wf m) {base : Nat} {bs : List Byte}
    (h : base + bs.length ≤ Config.memSize) : Memory.wf (Memory.setRange m base bs) := by
  induction bs generalizing m base with
  | nil => exact hm
  | cons b bs ih =>
    simp only [List.length_cons] at h
    exact ih (Memory.wf_set hm (by omega) b) (by omega)

@[simp] theorem length_decimalDigits (b : Byte) : (decimalDigits b).length = 3 := rfl

@[simp] theorem length_blockBytes (s : State) (x : Reg) : (s.blockBytes x).length = x.val + 1 := by
  have := x.isLt
  simp only [State.blockBytes, blockLength, List.length_take, Vector.length_toList]
  omega

/-- Byte `j` of the registers' block is `V[j]`. -/
theorem State.getD_blockBytes (s : State) (x r : Reg) (h : r ≤ x) (d : Byte) : (s.blockBytes x).getD r d = s.getV r := by
  have hr : (r : Nat) < x.val + 1 := Nat.lt_succ_of_le h
  simp [State.blockBytes, blockLength, State.getV, List.getD, hr]

end Sys2Proof.Machine
end

