-- ==== Sys2Proof/Laws/State.lean ====
section
/-! SUPPORT. One lemma per field per update of the state, and the register file's read after write. -/

namespace Sys2Proof.Machine

/-! ### setV -/

@[simp] theorem State.setV_mem (s : State) (x : Reg) (b : Byte) : (s.setV x b).mem = s.mem := rfl
@[simp] theorem State.setV_v (s : State) (x : Reg) (b : Byte) : (s.setV x b).v = s.v.set x b := rfl
@[simp] theorem State.setV_i (s : State) (x : Reg) (b : Byte) : (s.setV x b).i = s.i := rfl
@[simp] theorem State.setV_pc (s : State) (x : Reg) (b : Byte) : (s.setV x b).pc = s.pc := rfl
@[simp] theorem State.setV_stack (s : State) (x : Reg) (b : Byte) : (s.setV x b).stack = s.stack := rfl
@[simp] theorem State.setV_dt (s : State) (x : Reg) (b : Byte) : (s.setV x b).dt = s.dt := rfl
@[simp] theorem State.setV_st (s : State) (x : Reg) (b : Byte) : (s.setV x b).st = s.st := rfl
@[simp] theorem State.setV_awaiting (s : State) (x : Reg) (b : Byte) : (s.setV x b).awaiting = s.awaiting := rfl
@[simp] theorem State.setV_fault (s : State) (x : Reg) (b : Byte) : (s.setV x b).fault = s.fault := rfl
@[simp] theorem State.setV_draws (s : State) (x : Reg) (b : Byte) : (s.setV x b).draws = s.draws := rfl
@[simp] theorem State.setV_calls (s : State) (x : Reg) (b : Byte) : (s.setV x b).calls = s.calls := rfl
@[simp] theorem State.setV_params (s : State) (x : Reg) (b : Byte) : (s.setV x b).params = s.params := rfl

/-! ### loadV -/

@[simp] theorem State.loadV_mem (s : State) (bytes : List Byte) : (s.loadV bytes).mem = s.mem := rfl
@[simp] theorem State.loadV_v (s : State) (bytes : List Byte) : (s.loadV bytes).v = Vector.ofFn fun r : Fin 16 => bytes.getD r (s.v[r]) := rfl
@[simp] theorem State.loadV_i (s : State) (bytes : List Byte) : (s.loadV bytes).i = s.i := rfl
@[simp] theorem State.loadV_pc (s : State) (bytes : List Byte) : (s.loadV bytes).pc = s.pc := rfl
@[simp] theorem State.loadV_stack (s : State) (bytes : List Byte) : (s.loadV bytes).stack = s.stack := rfl
@[simp] theorem State.loadV_dt (s : State) (bytes : List Byte) : (s.loadV bytes).dt = s.dt := rfl
@[simp] theorem State.loadV_st (s : State) (bytes : List Byte) : (s.loadV bytes).st = s.st := rfl
@[simp] theorem State.loadV_awaiting (s : State) (bytes : List Byte) : (s.loadV bytes).awaiting = s.awaiting := rfl
@[simp] theorem State.loadV_fault (s : State) (bytes : List Byte) : (s.loadV bytes).fault = s.fault := rfl
@[simp] theorem State.loadV_draws (s : State) (bytes : List Byte) : (s.loadV bytes).draws = s.draws := rfl
@[simp] theorem State.loadV_calls (s : State) (bytes : List Byte) : (s.loadV bytes).calls = s.calls := rfl
@[simp] theorem State.loadV_params (s : State) (bytes : List Byte) : (s.loadV bytes).params = s.params := rfl

/-! ### setI -/

@[simp] theorem State.setI_mem (s : State) (w : Word) : (s.setI w).mem = s.mem := rfl
@[simp] theorem State.setI_v (s : State) (w : Word) : (s.setI w).v = s.v := rfl
@[simp] theorem State.setI_i (s : State) (w : Word) : (s.setI w).i = w := rfl
@[simp] theorem State.setI_pc (s : State) (w : Word) : (s.setI w).pc = s.pc := rfl
@[simp] theorem State.setI_stack (s : State) (w : Word) : (s.setI w).stack = s.stack := rfl
@[simp] theorem State.setI_dt (s : State) (w : Word) : (s.setI w).dt = s.dt := rfl
@[simp] theorem State.setI_st (s : State) (w : Word) : (s.setI w).st = s.st := rfl
@[simp] theorem State.setI_awaiting (s : State) (w : Word) : (s.setI w).awaiting = s.awaiting := rfl
@[simp] theorem State.setI_fault (s : State) (w : Word) : (s.setI w).fault = s.fault := rfl
@[simp] theorem State.setI_draws (s : State) (w : Word) : (s.setI w).draws = s.draws := rfl
@[simp] theorem State.setI_calls (s : State) (w : Word) : (s.setI w).calls = s.calls := rfl
@[simp] theorem State.setI_params (s : State) (w : Word) : (s.setI w).params = s.params := rfl

/-! ### setPc -/

@[simp] theorem State.setPc_mem (s : State) (w : Word) : (s.setPc w).mem = s.mem := rfl
@[simp] theorem State.setPc_v (s : State) (w : Word) : (s.setPc w).v = s.v := rfl
@[simp] theorem State.setPc_i (s : State) (w : Word) : (s.setPc w).i = s.i := rfl
@[simp] theorem State.setPc_pc (s : State) (w : Word) : (s.setPc w).pc = w := rfl
@[simp] theorem State.setPc_stack (s : State) (w : Word) : (s.setPc w).stack = s.stack := rfl
@[simp] theorem State.setPc_dt (s : State) (w : Word) : (s.setPc w).dt = s.dt := rfl
@[simp] theorem State.setPc_st (s : State) (w : Word) : (s.setPc w).st = s.st := rfl
@[simp] theorem State.setPc_awaiting (s : State) (w : Word) : (s.setPc w).awaiting = s.awaiting := rfl
@[simp] theorem State.setPc_fault (s : State) (w : Word) : (s.setPc w).fault = s.fault := rfl
@[simp] theorem State.setPc_draws (s : State) (w : Word) : (s.setPc w).draws = s.draws := rfl
@[simp] theorem State.setPc_calls (s : State) (w : Word) : (s.setPc w).calls = s.calls := rfl
@[simp] theorem State.setPc_params (s : State) (w : Word) : (s.setPc w).params = s.params := rfl

/-! ### setDt -/

@[simp] theorem State.setDt_mem (s : State) (b : Byte) : (s.setDt b).mem = s.mem := rfl
@[simp] theorem State.setDt_v (s : State) (b : Byte) : (s.setDt b).v = s.v := rfl
@[simp] theorem State.setDt_i (s : State) (b : Byte) : (s.setDt b).i = s.i := rfl
@[simp] theorem State.setDt_pc (s : State) (b : Byte) : (s.setDt b).pc = s.pc := rfl
@[simp] theorem State.setDt_stack (s : State) (b : Byte) : (s.setDt b).stack = s.stack := rfl
@[simp] theorem State.setDt_dt (s : State) (b : Byte) : (s.setDt b).dt = b := rfl
@[simp] theorem State.setDt_st (s : State) (b : Byte) : (s.setDt b).st = s.st := rfl
@[simp] theorem State.setDt_awaiting (s : State) (b : Byte) : (s.setDt b).awaiting = s.awaiting := rfl
@[simp] theorem State.setDt_fault (s : State) (b : Byte) : (s.setDt b).fault = s.fault := rfl
@[simp] theorem State.setDt_draws (s : State) (b : Byte) : (s.setDt b).draws = s.draws := rfl
@[simp] theorem State.setDt_calls (s : State) (b : Byte) : (s.setDt b).calls = s.calls := rfl
@[simp] theorem State.setDt_params (s : State) (b : Byte) : (s.setDt b).params = s.params := rfl

/-! ### setSt -/

@[simp] theorem State.setSt_mem (s : State) (b : Byte) : (s.setSt b).mem = s.mem := rfl
@[simp] theorem State.setSt_v (s : State) (b : Byte) : (s.setSt b).v = s.v := rfl
@[simp] theorem State.setSt_i (s : State) (b : Byte) : (s.setSt b).i = s.i := rfl
@[simp] theorem State.setSt_pc (s : State) (b : Byte) : (s.setSt b).pc = s.pc := rfl
@[simp] theorem State.setSt_stack (s : State) (b : Byte) : (s.setSt b).stack = s.stack := rfl
@[simp] theorem State.setSt_dt (s : State) (b : Byte) : (s.setSt b).dt = s.dt := rfl
@[simp] theorem State.setSt_st (s : State) (b : Byte) : (s.setSt b).st = b := rfl
@[simp] theorem State.setSt_awaiting (s : State) (b : Byte) : (s.setSt b).awaiting = s.awaiting := rfl
@[simp] theorem State.setSt_fault (s : State) (b : Byte) : (s.setSt b).fault = s.fault := rfl
@[simp] theorem State.setSt_draws (s : State) (b : Byte) : (s.setSt b).draws = s.draws := rfl
@[simp] theorem State.setSt_calls (s : State) (b : Byte) : (s.setSt b).calls = s.calls := rfl
@[simp] theorem State.setSt_params (s : State) (b : Byte) : (s.setSt b).params = s.params := rfl

/-! ### setMem -/

@[simp] theorem State.setMem_mem (s : State) (m : Memory) : (s.setMem m).mem = m := rfl
@[simp] theorem State.setMem_v (s : State) (m : Memory) : (s.setMem m).v = s.v := rfl
@[simp] theorem State.setMem_i (s : State) (m : Memory) : (s.setMem m).i = s.i := rfl
@[simp] theorem State.setMem_pc (s : State) (m : Memory) : (s.setMem m).pc = s.pc := rfl
@[simp] theorem State.setMem_stack (s : State) (m : Memory) : (s.setMem m).stack = s.stack := rfl
@[simp] theorem State.setMem_dt (s : State) (m : Memory) : (s.setMem m).dt = s.dt := rfl
@[simp] theorem State.setMem_st (s : State) (m : Memory) : (s.setMem m).st = s.st := rfl
@[simp] theorem State.setMem_awaiting (s : State) (m : Memory) : (s.setMem m).awaiting = s.awaiting := rfl
@[simp] theorem State.setMem_fault (s : State) (m : Memory) : (s.setMem m).fault = s.fault := rfl
@[simp] theorem State.setMem_draws (s : State) (m : Memory) : (s.setMem m).draws = s.draws := rfl
@[simp] theorem State.setMem_calls (s : State) (m : Memory) : (s.setMem m).calls = s.calls := rfl
@[simp] theorem State.setMem_params (s : State) (m : Memory) : (s.setMem m).params = s.params := rfl

/-! ### setStack -/

@[simp] theorem State.setStack_mem (s : State) (l : List Word) : (s.setStack l).mem = s.mem := rfl
@[simp] theorem State.setStack_v (s : State) (l : List Word) : (s.setStack l).v = s.v := rfl
@[simp] theorem State.setStack_i (s : State) (l : List Word) : (s.setStack l).i = s.i := rfl
@[simp] theorem State.setStack_pc (s : State) (l : List Word) : (s.setStack l).pc = s.pc := rfl
@[simp] theorem State.setStack_stack (s : State) (l : List Word) : (s.setStack l).stack = l := rfl
@[simp] theorem State.setStack_dt (s : State) (l : List Word) : (s.setStack l).dt = s.dt := rfl
@[simp] theorem State.setStack_st (s : State) (l : List Word) : (s.setStack l).st = s.st := rfl
@[simp] theorem State.setStack_awaiting (s : State) (l : List Word) : (s.setStack l).awaiting = s.awaiting := rfl
@[simp] theorem State.setStack_fault (s : State) (l : List Word) : (s.setStack l).fault = s.fault := rfl
@[simp] theorem State.setStack_draws (s : State) (l : List Word) : (s.setStack l).draws = s.draws := rfl
@[simp] theorem State.setStack_calls (s : State) (l : List Word) : (s.setStack l).calls = s.calls := rfl
@[simp] theorem State.setStack_params (s : State) (l : List Word) : (s.setStack l).params = s.params := rfl

/-! ### setAwaiting -/

@[simp] theorem State.setAwaiting_mem (s : State) (a : Option Reg) : (s.setAwaiting a).mem = s.mem := rfl
@[simp] theorem State.setAwaiting_v (s : State) (a : Option Reg) : (s.setAwaiting a).v = s.v := rfl
@[simp] theorem State.setAwaiting_i (s : State) (a : Option Reg) : (s.setAwaiting a).i = s.i := rfl
@[simp] theorem State.setAwaiting_pc (s : State) (a : Option Reg) : (s.setAwaiting a).pc = s.pc := rfl
@[simp] theorem State.setAwaiting_stack (s : State) (a : Option Reg) : (s.setAwaiting a).stack = s.stack := rfl
@[simp] theorem State.setAwaiting_dt (s : State) (a : Option Reg) : (s.setAwaiting a).dt = s.dt := rfl
@[simp] theorem State.setAwaiting_st (s : State) (a : Option Reg) : (s.setAwaiting a).st = s.st := rfl
@[simp] theorem State.setAwaiting_awaiting (s : State) (a : Option Reg) : (s.setAwaiting a).awaiting = a := rfl
@[simp] theorem State.setAwaiting_fault (s : State) (a : Option Reg) : (s.setAwaiting a).fault = s.fault := rfl
@[simp] theorem State.setAwaiting_draws (s : State) (a : Option Reg) : (s.setAwaiting a).draws = s.draws := rfl
@[simp] theorem State.setAwaiting_calls (s : State) (a : Option Reg) : (s.setAwaiting a).calls = s.calls := rfl
@[simp] theorem State.setAwaiting_params (s : State) (a : Option Reg) : (s.setAwaiting a).params = s.params := rfl

/-! ### setFault -/

@[simp] theorem State.setFault_mem (s : State) (e : Option CycleError) : (s.setFault e).mem = s.mem := rfl
@[simp] theorem State.setFault_v (s : State) (e : Option CycleError) : (s.setFault e).v = s.v := rfl
@[simp] theorem State.setFault_i (s : State) (e : Option CycleError) : (s.setFault e).i = s.i := rfl
@[simp] theorem State.setFault_pc (s : State) (e : Option CycleError) : (s.setFault e).pc = s.pc := rfl
@[simp] theorem State.setFault_stack (s : State) (e : Option CycleError) : (s.setFault e).stack = s.stack := rfl
@[simp] theorem State.setFault_dt (s : State) (e : Option CycleError) : (s.setFault e).dt = s.dt := rfl
@[simp] theorem State.setFault_st (s : State) (e : Option CycleError) : (s.setFault e).st = s.st := rfl
@[simp] theorem State.setFault_awaiting (s : State) (e : Option CycleError) : (s.setFault e).awaiting = s.awaiting := rfl
@[simp] theorem State.setFault_fault (s : State) (e : Option CycleError) : (s.setFault e).fault = e := rfl
@[simp] theorem State.setFault_draws (s : State) (e : Option CycleError) : (s.setFault e).draws = s.draws := rfl
@[simp] theorem State.setFault_calls (s : State) (e : Option CycleError) : (s.setFault e).calls = s.calls := rfl
@[simp] theorem State.setFault_params (s : State) (e : Option CycleError) : (s.setFault e).params = s.params := rfl

/-! ### advance -/

@[simp] theorem State.advance_mem (s : State) : (s.advance).mem = s.mem := rfl
@[simp] theorem State.advance_v (s : State) : (s.advance).v = s.v := rfl
@[simp] theorem State.advance_i (s : State) : (s.advance).i = s.i := rfl
@[simp] theorem State.advance_pc (s : State) : (s.advance).pc = s.pc + 2#16 := rfl
@[simp] theorem State.advance_stack (s : State) : (s.advance).stack = s.stack := rfl
@[simp] theorem State.advance_dt (s : State) : (s.advance).dt = s.dt := rfl
@[simp] theorem State.advance_st (s : State) : (s.advance).st = s.st := rfl
@[simp] theorem State.advance_awaiting (s : State) : (s.advance).awaiting = s.awaiting := rfl
@[simp] theorem State.advance_fault (s : State) : (s.advance).fault = s.fault := rfl
@[simp] theorem State.advance_draws (s : State) : (s.advance).draws = s.draws := rfl
@[simp] theorem State.advance_calls (s : State) : (s.advance).calls = s.calls := rfl
@[simp] theorem State.advance_params (s : State) : (s.advance).params = s.params := rfl

/-! ### skipIf -/

@[simp] theorem State.skipIf_mem (s : State) (c : Bool) : (s.skipIf c).mem = s.mem := rfl
@[simp] theorem State.skipIf_v (s : State) (c : Bool) : (s.skipIf c).v = s.v := rfl
@[simp] theorem State.skipIf_i (s : State) (c : Bool) : (s.skipIf c).i = s.i := rfl
@[simp] theorem State.skipIf_pc (s : State) (c : Bool) : (s.skipIf c).pc = if c then s.pc + 2#16 else s.pc := rfl
@[simp] theorem State.skipIf_stack (s : State) (c : Bool) : (s.skipIf c).stack = s.stack := rfl
@[simp] theorem State.skipIf_dt (s : State) (c : Bool) : (s.skipIf c).dt = s.dt := rfl
@[simp] theorem State.skipIf_st (s : State) (c : Bool) : (s.skipIf c).st = s.st := rfl
@[simp] theorem State.skipIf_awaiting (s : State) (c : Bool) : (s.skipIf c).awaiting = s.awaiting := rfl
@[simp] theorem State.skipIf_fault (s : State) (c : Bool) : (s.skipIf c).fault = s.fault := rfl
@[simp] theorem State.skipIf_draws (s : State) (c : Bool) : (s.skipIf c).draws = s.draws := rfl
@[simp] theorem State.skipIf_calls (s : State) (c : Bool) : (s.skipIf c).calls = s.calls := rfl
@[simp] theorem State.skipIf_params (s : State) (c : Bool) : (s.skipIf c).params = s.params := rfl

/-! ### tell -/

@[simp] theorem State.tell_mem (s : State) (c : Call) : (s.tell c).mem = s.mem := rfl
@[simp] theorem State.tell_v (s : State) (c : Call) : (s.tell c).v = s.v := rfl
@[simp] theorem State.tell_i (s : State) (c : Call) : (s.tell c).i = s.i := rfl
@[simp] theorem State.tell_pc (s : State) (c : Call) : (s.tell c).pc = s.pc := rfl
@[simp] theorem State.tell_stack (s : State) (c : Call) : (s.tell c).stack = s.stack := rfl
@[simp] theorem State.tell_dt (s : State) (c : Call) : (s.tell c).dt = s.dt := rfl
@[simp] theorem State.tell_st (s : State) (c : Call) : (s.tell c).st = s.st := rfl
@[simp] theorem State.tell_awaiting (s : State) (c : Call) : (s.tell c).awaiting = s.awaiting := rfl
@[simp] theorem State.tell_fault (s : State) (c : Call) : (s.tell c).fault = s.fault := rfl
@[simp] theorem State.tell_draws (s : State) (c : Call) : (s.tell c).draws = s.draws := rfl
@[simp] theorem State.tell_calls (s : State) (c : Call) : (s.tell c).calls = s.calls ++ [c] := rfl
@[simp] theorem State.tell_params (s : State) (c : Call) : (s.tell c).params = s.params := rfl

/-! ### ask -/

@[simp] theorem State.ask_mem (s : State) (c : Call) : (s.ask c).mem = s.mem := rfl
@[simp] theorem State.ask_v (s : State) (c : Call) : (s.ask c).v = s.v := rfl
@[simp] theorem State.ask_i (s : State) (c : Call) : (s.ask c).i = s.i := rfl
@[simp] theorem State.ask_pc (s : State) (c : Call) : (s.ask c).pc = s.pc := rfl
@[simp] theorem State.ask_stack (s : State) (c : Call) : (s.ask c).stack = s.stack := rfl
@[simp] theorem State.ask_dt (s : State) (c : Call) : (s.ask c).dt = s.dt := rfl
@[simp] theorem State.ask_st (s : State) (c : Call) : (s.ask c).st = s.st := rfl
@[simp] theorem State.ask_awaiting (s : State) (c : Call) : (s.ask c).awaiting = s.awaiting := rfl
@[simp] theorem State.ask_fault (s : State) (c : Call) : (s.ask c).fault = s.fault := rfl
@[simp] theorem State.ask_draws (s : State) (c : Call) : (s.ask c).draws = s.draws + 1 := rfl
@[simp] theorem State.ask_calls (s : State) (c : Call) : (s.ask c).calls = s.calls ++ [c] := rfl
@[simp] theorem State.ask_params (s : State) (c : Call) : (s.ask c).params = s.params := rfl

/-! ### setFlag: VF is written or left, and nothing else moves -/

@[simp] theorem State.setFlag_mem (s : State) (o : Option Byte) : (s.setFlag o).mem = s.mem := by
  cases o <;> rfl
@[simp] theorem State.setFlag_i (s : State) (o : Option Byte) : (s.setFlag o).i = s.i := by
  cases o <;> rfl
@[simp] theorem State.setFlag_pc (s : State) (o : Option Byte) : (s.setFlag o).pc = s.pc := by
  cases o <;> rfl
@[simp] theorem State.setFlag_stack (s : State) (o : Option Byte) : (s.setFlag o).stack = s.stack := by
  cases o <;> rfl
@[simp] theorem State.setFlag_dt (s : State) (o : Option Byte) : (s.setFlag o).dt = s.dt := by
  cases o <;> rfl
@[simp] theorem State.setFlag_st (s : State) (o : Option Byte) : (s.setFlag o).st = s.st := by
  cases o <;> rfl
@[simp] theorem State.setFlag_awaiting (s : State) (o : Option Byte) : (s.setFlag o).awaiting = s.awaiting := by
  cases o <;> rfl
@[simp] theorem State.setFlag_fault (s : State) (o : Option Byte) : (s.setFlag o).fault = s.fault := by
  cases o <;> rfl
@[simp] theorem State.setFlag_draws (s : State) (o : Option Byte) : (s.setFlag o).draws = s.draws := by
  cases o <;> rfl
@[simp] theorem State.setFlag_calls (s : State) (o : Option Byte) : (s.setFlag o).calls = s.calls := by
  cases o <;> rfl
@[simp] theorem State.setFlag_params (s : State) (o : Option Byte) : (s.setFlag o).params = s.params := by
  cases o <;> rfl

/-! ### Reading a register -/

/-- A register read after a register write (10_state.md R19: no register aliases another). -/
@[simp] theorem State.getV_setV (s : State) (x r : Reg) (b : Byte) :
    (s.setV x b).getV r = if r = x then b else s.getV r := by
  by_cases h : r = x
  · subst h; simp [State.getV, State.setV]
  · have h' : (x : Nat) ≠ r := fun e => h (Fin.ext e.symm)
    simp [State.getV, State.setV, h, h']

@[simp] theorem State.getV_setFlag_none (s : State) (r : Reg) : (s.setFlag none).getV r = s.getV r := rfl

@[simp] theorem State.getV_setFlag_some (s : State) (b : Byte) (r : Reg) :
    (s.setFlag (some b)).getV r = if r = flagReg then b else s.getV r := State.getV_setV s flagReg r b

/-- A register after a block load: the byte of its number, or what it held. -/
@[simp] theorem State.getV_loadV (s : State) (bytes : List Byte) (r : Reg) :
    (s.loadV bytes).getV r = bytes.getD r (s.getV r) := by
  simp [State.getV, State.loadV]

@[simp] theorem State.getV_setI (s : State) (w : Word) (r : Reg) : (s.setI w).getV r = s.getV r := rfl
@[simp] theorem State.getV_setPc (s : State) (w : Word) (r : Reg) : (s.setPc w).getV r = s.getV r := rfl
@[simp] theorem State.getV_setDt (s : State) (b : Byte) (r : Reg) : (s.setDt b).getV r = s.getV r := rfl
@[simp] theorem State.getV_setSt (s : State) (b : Byte) (r : Reg) : (s.setSt b).getV r = s.getV r := rfl
@[simp] theorem State.getV_setMem (s : State) (m : Memory) (r : Reg) : (s.setMem m).getV r = s.getV r := rfl
@[simp] theorem State.getV_setStack (s : State) (l : List Word) (r : Reg) : (s.setStack l).getV r = s.getV r := rfl
@[simp] theorem State.getV_setAwaiting (s : State) (a : Option Reg) (r : Reg) : (s.setAwaiting a).getV r = s.getV r := rfl
@[simp] theorem State.getV_setFault (s : State) (e : Option CycleError) (r : Reg) : (s.setFault e).getV r = s.getV r := rfl
@[simp] theorem State.getV_advance (s : State) (r : Reg) : (s.advance).getV r = s.getV r := rfl
@[simp] theorem State.getV_skipIf (s : State) (c : Bool) (r : Reg) : (s.skipIf c).getV r = s.getV r := rfl
@[simp] theorem State.getV_tell (s : State) (c : Call) (r : Reg) : (s.tell c).getV r = s.getV r := rfl
@[simp] theorem State.getV_ask (s : State) (c : Call) (r : Reg) : (s.ask c).getV r = s.getV r := rfl

/-- Two states with the same fields are the same state. -/
theorem State.ext_of_fields {s t : State} (hm : s.mem = t.mem) (hv : s.v = t.v) (hi : s.i = t.i) (hp : s.pc = t.pc)
    (hk : s.stack = t.stack) (hd : s.dt = t.dt) (hs : s.st = t.st) (ha : s.awaiting = t.awaiting) (hf : s.fault = t.fault)
    (hr : s.draws = t.draws) (hc : s.calls = t.calls) (hq : s.params = t.params) : s = t := by
  cases s; cases t; simp_all

/-- Register files that read alike are equal. -/
theorem State.v_ext {s t : State} (h : ∀ r, s.getV r = t.getV r) : s.v = t.v := by
  apply Vector.ext
  intro j hj
  exact h ⟨j, hj⟩

end Sys2Proof.Machine
end

