-- ==== Sys2Proof/Laws/Ops.lean ====
section
/-! SUPPORT. What each shared operation can do, said once: the bounds check, the stack, raising, the guarded access, the flagged
register write, the flags and operands as numbers. -/

namespace Sys2Proof.Machine

/-! ### The bounds check (20_memory.md R36, R40) -/

/-- A range is in bounds exactly when it is empty or ends within Memory. -/
theorem firstOutOfRange_eq_none {base len : Nat} : firstOutOfRange base len = none ↔ len = 0 ∨ base + len ≤ 4096 := by
  by_cases h0 : len = 0 <;> by_cases h1 : base + len ≤ 4096 <;> simp [firstOutOfRange, h0, h1]

/-- A range that leaves Memory reports `max(base, MEM_SIZE)`. -/
theorem firstOutOfRange_of_out {base len : Nat} (h0 : len ≠ 0) (h : 4096 < base + len) :
    firstOutOfRange base len = some (max base 4096) := by
  simp [firstOutOfRange, h0, Nat.not_le.mpr h]

/-- The address reported is out of range, in the range asked for, and no lower address of the range is out of range. -/
theorem firstOutOfRange_some {base len a : Nat} (h : firstOutOfRange base len = some a) :
    4096 ≤ a ∧ base ≤ a ∧ a < base + len ∧ ∀ k, base ≤ k → k < a → k < 4096 := by
  by_cases h0 : len = 0
  · simp [firstOutOfRange, h0] at h
  · by_cases h1 : base + len ≤ 4096
    · simp [firstOutOfRange, h1] at h
    · rw [firstOutOfRange_of_out h0 (by omega), Option.some.injEq] at h
      exact ⟨by omega, by omega, by omega, fun k hk hka => by omega⟩

/-! ### Raising (40_cycle.md R72) -/

/-- Raising an error always gives a next state: the state it was raised in, with the latch written. -/
@[simp] theorem raise_eq (e : CycleError) (s : State) : raise e s = .next (s.setFault (some e)) := rfl

/-- A guarded access whose range is in bounds. -/
theorem guardRange_in {base len : Nat} (s t : State) (h : len = 0 ∨ base + len ≤ 4096) : guardRange base len s t = .next t := by
  simp [guardRange, firstOutOfRange_eq_none.mpr h]

/-- A guarded access whose range leaves Memory. -/
theorem guardRange_out {base len : Nat} (s t : State) (h0 : len ≠ 0) (h : 4096 < base + len) :
    guardRange base len s t = .next (s.setFault (some (.outOfBoundsAccess s.pc (max base 4096)))) := by
  simp [guardRange, firstOutOfRange_of_out h0 h]

/-- All that a guarded access can do. -/
theorem guardRange_cases {base len : Nat} {s t u : State} (h : guardRange base len s t = .next u) :
    (u = t ∧ (len = 0 ∨ base + len ≤ 4096)) ∨
      (u = s.setFault (some (.outOfBoundsAccess s.pc (max base 4096))) ∧ len ≠ 0 ∧ 4096 < base + len) := by
  by_cases hr : len = 0 ∨ base + len ≤ 4096
  · rw [guardRange_in s t hr] at h
    cases h
    exact .inl ⟨rfl, hr⟩
  · have h0 : len ≠ 0 := fun e => hr (.inl e)
    have h1 : 4096 < base + len := by omega
    rw [guardRange_out s t h0 h1] at h
    cases h
    exact .inr ⟨rfl, h0, h1⟩

/-! ### The stack (10_state.md R28) -/

theorem State.push_of_lt (s : State) (w : Word) (h : s.stack.length < 16) : s.push w = some (s.setStack (s.stack ++ [w])) := by
  simp [State.push, Nat.not_le.mpr h]

theorem State.push_of_full (s : State) (w : Word) (h : 16 ≤ s.stack.length) : s.push w = none := by
  simp [State.push, h]

/-- All that a push can do. -/
theorem State.push_some {s t : State} {w : Word} (h : s.push w = some t) :
    t = s.setStack (s.stack ++ [w]) ∧ s.stack.length < 16 := by
  by_cases hd : s.stack.length < 16
  · rw [State.push_of_lt s w hd, Option.some.injEq] at h
    exact ⟨h.symm, hd⟩
  · simp [State.push_of_full s w (by omega)] at h

theorem State.pop_of_nil (s : State) (h : s.stack = []) : s.pop = none := by simp [State.pop, h]

theorem State.pop_of_append (s : State) {l : List Word} {w : Word} (h : s.stack = l ++ [w]) :
    s.pop = some (w, s.setStack l) := by simp [State.pop, h]

/-- The push of a call: the fetch advance changes neither the depth nor the entries. -/
theorem State.push_advance (s : State) (w : Word) (h : s.stack.length < 16) :
    s.advance.push w = some (s.advance.setStack (s.stack ++ [w])) := State.push_of_lt s.advance w h

/-- All that a pop can do. -/
theorem State.pop_some {s t : State} {w : Word} (h : s.pop = some (w, t)) :
    ∃ l, s.stack = l ++ [w] ∧ t = s.setStack l := by
  rcases List.eq_nil_or_concat s.stack with hn | ⟨l, v, hl⟩
  · simp [State.pop_of_nil s hn] at h
  · rw [List.concat_eq_append] at hl
    rw [State.pop_of_append s hl] at h
    simp only [Option.some.injEq, Prod.mk.injEq] at h
    obtain ⟨rfl, rfl⟩ := h
    exact ⟨l, hl, rfl⟩

/-! ### The flagged register write (40_cycle.md R71) -/

/-- The value of every register after the shared shape of the data operations: the flag wins in VF, then the result. -/
theorem getV_result_flag (s : State) (x r : Reg) (b : Byte) (f : Option Byte) :
    ((s.advance.setV x b).setFlag f).getV r =
      if r = flagReg ∧ f.isSome then f.getD 0#8 else if r = x then b else s.getV r := by
  cases f <;> by_cases hr : r = flagReg <;> simp [hr]

/-- All that a flagged register write can do. -/
theorem writeResult_eq (x : Reg) (b : Byte) (f : Option Byte) (s : State) :
    writeResult x b f s = .next ((s.advance.setV x b).setFlag f) := rfl

/-! ### Operands as numbers (30_encoding.md R51) -/

@[simp] theorem toNat_addrOperand (nnn : Addr12) : (addrOperand nnn).toNat = nnn.toNat := by
  have := nnn.isLt
  simp only [addrOperand, BitVec.toNat_setWidth]
  omega

@[simp] theorem toNat_wideByte (b : Byte) : (wideByte b).toNat = b.toNat := by
  have := b.isLt
  simp only [wideByte, BitVec.toNat_setWidth]
  omega

/-- The glyph address never wraps (43_io_adjacent.md R110). -/
@[simp] theorem toNat_glyphAddress (f : Fin 433) (b : Byte) : (glyphAddress f b).toNat = f.val + 5 * b.toNat := by
  have := b.isLt
  have := f.isLt
  simp only [glyphAddress, glyphSize_eq, BitVec.toNat_ofNat]
  omega

end Sys2Proof.Machine
end

