-- ==== Sys2Proof/Laws/PerInstr.lean ====
section
/-! SUPPORT. The per-instruction family OpcodeMap: the encoder's word selects the instruction's own row of the opcode map
(30_encoding.md R61), "A word selects row r when (w & mask) == match", and its family nibble is the row's. -/

namespace Sys2Proof.Laws.OpcodeMap

/-- The word of a well-formed instruction selects the instruction's row of R61, and the row's mask holds the whole family nibble. -/
def Statement (i : Instr) : Prop :=
  i.wellFormed = true → selectsRow (encode i) i = true ∧ fieldF (encode i) = fieldF (opcodeRow i).2

/-- A format-A word under the mask F000 is its family nibble. -/
theorem maskA (f : Nibble) (nnn : Addr12) : formatA f nnn &&& 0xF000#16 = formatA f 0#12 := by
  apply BitVec.eq_of_getLsbD_eq
  intro i hi
  interval_cases i <;> simp [getLsbD_formatA, -BitVec.getLsbD_eq_getElem]

/-- A format-XK word under the mask F000 is its family nibble. -/
theorem maskXK (f : Nibble) (x : Reg) (kk : Byte) : formatXK f x kk &&& 0xF000#16 = formatA f 0#12 := by
  apply BitVec.eq_of_getLsbD_eq
  intro i hi
  interval_cases i <;> simp [getLsbD_formatA, getLsbD_formatXK, -BitVec.getLsbD_eq_getElem]

/-- A format-XS word under the mask F0FF is its family nibble and its low byte. -/
theorem maskXS (f : Nibble) (x : Reg) (kk : Byte) : formatXK f x kk &&& 0xF0FF#16 = formatXK f 0 kk := by
  apply BitVec.eq_of_getLsbD_eq
  intro i hi
  interval_cases i <;> simp [getLsbD_formatXK, -BitVec.getLsbD_eq_getElem]

/-- A format-XY word under the mask F000 is its family nibble. -/
theorem maskXYN (f : Nibble) (x y : Reg) (n : Nibble) : formatXY f x y n &&& 0xF000#16 = formatA f 0#12 := by
  apply BitVec.eq_of_getLsbD_eq
  intro i hi
  interval_cases i <;> simp [getLsbD_formatA, getLsbD_formatXY, -BitVec.getLsbD_eq_getElem]

/-- A format-XY word under the mask F00F is its family nibble and its low nibble. -/
theorem maskXY (f : Nibble) (x y : Reg) (n : Nibble) : formatXY f x y n &&& 0xF00F#16 = formatXY f 0 0 n := by
  apply BitVec.eq_of_getLsbD_eq
  intro i hi
  interval_cases i <;> simp [getLsbD_formatXY, -BitVec.getLsbD_eq_getElem]

theorem cls : Statement .cls := fun _ => by decide

theorem ret : Statement .ret := fun _ => by decide

theorem sys (nnn : Addr12) : Statement (.sys nnn) := fun _ => by
  simp only [selectsRow, encode, opcodeRow, maskA, fieldF_formatA]
  decide

theorem jp (nnn : Addr12) : Statement (.jp nnn) := fun _ => by
  simp only [selectsRow, encode, opcodeRow, maskA, fieldF_formatA]
  decide

theorem call (nnn : Addr12) : Statement (.call nnn) := fun _ => by
  simp only [selectsRow, encode, opcodeRow, maskA, fieldF_formatA]
  decide

theorem seImm (x : Reg) (kk : Byte) : Statement (.seImm x kk) := fun _ => by
  simp only [selectsRow, encode, opcodeRow, maskXK, fieldF_formatXK]
  decide

theorem sneImm (x : Reg) (kk : Byte) : Statement (.sneImm x kk) := fun _ => by
  simp only [selectsRow, encode, opcodeRow, maskXK, fieldF_formatXK]
  decide

theorem seReg (x y : Reg) : Statement (.seReg x y) := fun _ => by
  simp only [selectsRow, encode, opcodeRow, maskXYN, fieldF_formatXY]
  decide

theorem ldImm (x : Reg) (kk : Byte) : Statement (.ldImm x kk) := fun _ => by
  simp only [selectsRow, encode, opcodeRow, maskXK, fieldF_formatXK]
  decide

theorem addImm (x : Reg) (kk : Byte) : Statement (.addImm x kk) := fun _ => by
  simp only [selectsRow, encode, opcodeRow, maskXK, fieldF_formatXK]
  decide

theorem ldReg (x y : Reg) : Statement (.ldReg x y) := fun _ => by
  simp only [selectsRow, encode, opcodeRow, maskXY, fieldF_formatXY]
  decide

theorem orReg (x y : Reg) : Statement (.orReg x y) := fun _ => by
  simp only [selectsRow, encode, opcodeRow, maskXY, fieldF_formatXY]
  decide

theorem andReg (x y : Reg) : Statement (.andReg x y) := fun _ => by
  simp only [selectsRow, encode, opcodeRow, maskXY, fieldF_formatXY]
  decide

theorem xorReg (x y : Reg) : Statement (.xorReg x y) := fun _ => by
  simp only [selectsRow, encode, opcodeRow, maskXY, fieldF_formatXY]
  decide

theorem addReg (x y : Reg) : Statement (.addReg x y) := fun _ => by
  simp only [selectsRow, encode, opcodeRow, maskXY, fieldF_formatXY]
  decide

theorem subReg (x y : Reg) : Statement (.subReg x y) := fun _ => by
  simp only [selectsRow, encode, opcodeRow, maskXY, fieldF_formatXY]
  decide

theorem shr (x y : Reg) : Statement (.shr x y) := fun _ => by
  simp only [selectsRow, encode, opcodeRow, maskXY, fieldF_formatXY]
  decide

theorem subn (x y : Reg) : Statement (.subn x y) := fun _ => by
  simp only [selectsRow, encode, opcodeRow, maskXY, fieldF_formatXY]
  decide

theorem shl (x y : Reg) : Statement (.shl x y) := fun _ => by
  simp only [selectsRow, encode, opcodeRow, maskXY, fieldF_formatXY]
  decide

theorem sneReg (x y : Reg) : Statement (.sneReg x y) := fun _ => by
  simp only [selectsRow, encode, opcodeRow, maskXYN, fieldF_formatXY]
  decide

theorem ldI (nnn : Addr12) : Statement (.ldI nnn) := fun _ => by
  simp only [selectsRow, encode, opcodeRow, maskA, fieldF_formatA]
  decide

theorem jpV0 (nnn : Addr12) : Statement (.jpV0 nnn) := fun _ => by
  simp only [selectsRow, encode, opcodeRow, maskA, fieldF_formatA]
  decide

theorem rnd (x : Reg) (kk : Byte) : Statement (.rnd x kk) := fun _ => by
  simp only [selectsRow, encode, opcodeRow, maskXK, fieldF_formatXK]
  decide

theorem drw (x y : Reg) (n : Nibble) : Statement (.drw x y n) := fun _ => by
  simp only [selectsRow, encode, opcodeRow, maskXYN, fieldF_formatXY]
  decide

theorem skp (x : Reg) : Statement (.skp x) := fun _ => by
  simp only [selectsRow, encode, opcodeRow, maskXS, fieldF_formatXK]
  decide

theorem sknp (x : Reg) : Statement (.sknp x) := fun _ => by
  simp only [selectsRow, encode, opcodeRow, maskXS, fieldF_formatXK]
  decide

theorem ldVxDt (x : Reg) : Statement (.ldVxDt x) := fun _ => by
  simp only [selectsRow, encode, opcodeRow, maskXS, fieldF_formatXK]
  decide

theorem ldVxK (x : Reg) : Statement (.ldVxK x) := fun _ => by
  simp only [selectsRow, encode, opcodeRow, maskXS, fieldF_formatXK]
  decide

theorem ldDtVx (x : Reg) : Statement (.ldDtVx x) := fun _ => by
  simp only [selectsRow, encode, opcodeRow, maskXS, fieldF_formatXK]
  decide

theorem ldStVx (x : Reg) : Statement (.ldStVx x) := fun _ => by
  simp only [selectsRow, encode, opcodeRow, maskXS, fieldF_formatXK]
  decide

theorem addI (x : Reg) : Statement (.addI x) := fun _ => by
  simp only [selectsRow, encode, opcodeRow, maskXS, fieldF_formatXK]
  decide

theorem ldF (x : Reg) : Statement (.ldF x) := fun _ => by
  simp only [selectsRow, encode, opcodeRow, maskXS, fieldF_formatXK]
  decide

theorem ldB (x : Reg) : Statement (.ldB x) := fun _ => by
  simp only [selectsRow, encode, opcodeRow, maskXS, fieldF_formatXK]
  decide

theorem dump (x : Reg) : Statement (.dump x) := fun _ => by
  simp only [selectsRow, encode, opcodeRow, maskXS, fieldF_formatXK]
  decide

theorem load (x : Reg) : Statement (.load x) := fun _ => by
  simp only [selectsRow, encode, opcodeRow, maskXS, fieldF_formatXK]
  decide

end Sys2Proof.Laws.OpcodeMap
end

