-- ==== Sys2Proof/Laws/Step.lean ====
section
/-! SUPPORT. What one step can do, said once (40_cycle.md R63). -/

namespace Sys2Proof.Machine

/-- A cycle fetches only where neither wait is set. -/
theorem startCycle_ready {s : State} (hf : s.fault = none) (ha : s.awaiting = none) :
    startCycle s =
      match fetchWord s with
      | .error e => .raised e
      | .ok w =>
        match decode w with
        | .error _ => .raised (.decodeFailure w s.pc)
        | .ok i => .run i := by
  rw [startCycle, hf, ha]
  rfl

/-- All that a fetch can answer with: the alignment error, the range error, or the big-endian word (R65, R66; 20_memory.md R38). -/
theorem fetchWord_cases (s : State) :
    (fetchWord s = .error (.misalignedFetch s.pc) ∧ s.pc.toNat % 2 = 1 ∧ s.params.oddPc = .fault) ∨
    (fetchWord s = .error (.outOfBoundsAccess s.pc (max s.pc.toNat 4096)) ∧ 4094 < s.pc.toNat ∧
      ¬(s.pc.toNat % 2 = 1 ∧ s.params.oddPc = .fault)) ∨
    (fetchWord s = .ok (wordOfBytes (Memory.get s.mem s.pc.toNat) (Memory.get s.mem (s.pc.toNat + 1))) ∧
      s.pc.toNat ≤ 4094 ∧ ¬(s.pc.toNat % 2 = 1 ∧ s.params.oddPc = .fault)) := by
  by_cases hm : s.pc.toNat % 2 = 1 ∧ s.params.oddPc = .fault
  · exact .inl ⟨by simp [fetchWord, hm], hm⟩
  · by_cases hr : s.pc.toNat ≤ 4094
    · refine .inr (.inr ⟨?_, hr, hm⟩)
      rw [fetchWord, if_neg hm, firstOutOfRange_eq_none.mpr (by omega)]
    · refine .inr (.inl ⟨?_, by omega, hm⟩)
      rw [fetchWord, if_neg hm, firstOutOfRange_of_out (by omega) (by omega)]

/-- All that a step can do: hold, take an error of the fetch or of decode, or execute the decoded instruction. -/
theorem step_cases (s : State) :
    (step s = .next s ∧ (s.fault ≠ none ∨ s.awaiting ≠ none)) ∨
    (s.fault = none ∧ s.awaiting = none ∧
      ((∃ e, step s = .next (s.setFault (some e)) ∧ e.pcFetch = s.pc) ∨
       (∃ i, step s = exec i s ∧ s.pc.toNat ≤ 4094 ∧ ¬(s.pc.toNat % 2 = 1 ∧ s.params.oddPc = .fault) ∧
         decode (wordOfBytes (Memory.get s.mem s.pc.toNat) (Memory.get s.mem (s.pc.toNat + 1))) = .ok i))) := by
  by_cases hf : s.fault = none
  · by_cases ha : s.awaiting = none
    · refine .inr ⟨hf, ha, ?_⟩
      rcases fetchWord_cases s with ⟨h, -⟩ | ⟨h, -⟩ | ⟨h, hr, hm⟩
      · exact .inl ⟨.misalignedFetch s.pc, by simp [step, startCycle_ready hf ha, h], rfl⟩
      · exact .inl ⟨.outOfBoundsAccess s.pc (max s.pc.toNat 4096), by simp [step, startCycle_ready hf ha, h], rfl⟩
      · cases hd : decode (wordOfBytes (Memory.get s.mem s.pc.toNat) (Memory.get s.mem (s.pc.toNat + 1))) with
        | error r =>
          exact .inl ⟨.decodeFailure (wordOfBytes (Memory.get s.mem s.pc.toNat) (Memory.get s.mem (s.pc.toNat + 1))) s.pc,
            by simp only [step, startCycle_ready hf ha, h, hd, raise_eq], rfl⟩
        | ok i => exact .inr ⟨i, by simp [step, startCycle_ready hf ha, h, hd], hr, hm, rfl⟩
    · exact .inl ⟨by simp [step, startCycle, hf, Option.isSome_iff_ne_none.mpr ha], .inr ha⟩
  · exact .inl ⟨by simp [step, startCycle, Option.isSome_iff_ne_none.mpr hf], .inl hf⟩

end Sys2Proof.Machine
end

