-- ==== Sys2Proof/Tests/Slice0.lean ====
section
/-! SUPPORT. Tests on fixed values. The expected values are those of spec/95_test_vectors.md (named `L1.n`, `Vn`) and of the encodings
of 30_encoding.md R50 and R61; and for each obligation with hypotheses, values that meet them. -/

namespace Sys2Proof.Tests

open Sys2Proof Sys2Proof.Machine

/-! ### Well-formedness: the one check refuses both words it is for (R53, R85) -/

theorem test_wellFormed_refuses_sys_0E0 : (Instr.sys 0x0E0#12).wellFormed = false := by decide
theorem test_wellFormed_refuses_sys_0EE : (Instr.sys 0x0EE#12).wellFormed = false := by decide
theorem test_wellFormed_admits_sys_0E1 : (Instr.sys 0x0E1#12).wellFormed = true := by decide

/-! ### Decode: one word per constructor, bit by bit as R50 draws the formats and R61 gives the fixed bits -/

theorem test_decode_cls : decode 0b0000_0000_1110_0000#16 = .ok .cls := by decide
theorem test_decode_ret : decode 0b0000_0000_1110_1110#16 = .ok .ret := by decide
theorem test_decode_sys : decode 0b0000_0001_0010_0011#16 = .ok (.sys 0x123#12) := by decide
theorem test_decode_jp : decode 0b0001_1010_1011_1100#16 = .ok (.jp 0xABC#12) := by decide
theorem test_decode_call : decode 0b0010_0011_0000_0000#16 = .ok (.call 0x300#12) := by decide
theorem test_decode_seImm : decode 0b0011_0011_0001_0000#16 = .ok (.seImm 3 0x10#8) := by decide
theorem test_decode_sneImm : decode 0b0100_0011_0001_0001#16 = .ok (.sneImm 3 0x11#8) := by decide
theorem test_decode_seReg : decode 0b0101_1010_1011_0111#16 = .ok (.seReg 10 11) := by decide
theorem test_decode_ldImm : decode 0b0110_1010_0011_1100#16 = .ok (.ldImm 10 0x3C#8) := by decide
theorem test_decode_addImm : decode 0b0111_0000_0000_0010#16 = .ok (.addImm 0 0x02#8) := by decide
theorem test_decode_ldReg : decode 0b1000_0001_0010_0000#16 = .ok (.ldReg 1 2) := by decide
theorem test_decode_orReg : decode 0b1000_0001_0010_0001#16 = .ok (.orReg 1 2) := by decide
theorem test_decode_andReg : decode 0b1000_0001_0010_0010#16 = .ok (.andReg 1 2) := by decide
theorem test_decode_xorReg : decode 0b1000_0001_0010_0011#16 = .ok (.xorReg 1 2) := by decide
theorem test_decode_addReg : decode 0b1000_0000_0001_0100#16 = .ok (.addReg 0 1) := by decide
theorem test_decode_subReg : decode 0b1000_0000_0001_0101#16 = .ok (.subReg 0 1) := by decide
theorem test_decode_shr : decode 0b1000_0001_0010_0110#16 = .ok (.shr 1 2) := by decide
theorem test_decode_subn : decode 0b1000_0001_0010_0111#16 = .ok (.subn 1 2) := by decide
theorem test_decode_shl : decode 0b1000_0001_0010_1110#16 = .ok (.shl 1 2) := by decide
theorem test_decode_sneReg : decode 0b1001_0001_0010_1111#16 = .ok (.sneReg 1 2) := by decide
theorem test_decode_ldI : decode 0b1010_0010_1111_0000#16 = .ok (.ldI 0x2F0#12) := by decide
theorem test_decode_jpV0 : decode 0b1011_0101_1111_1111#16 = .ok (.jpV0 0x5FF#12) := by decide
theorem test_decode_rnd : decode 0b1100_0101_0000_1111#16 = .ok (.rnd 5 0x0F#8) := by decide
theorem test_decode_drw : decode 0b1101_0000_0001_1111#16 = .ok (.drw 0 1 0xF#4) := by decide
theorem test_decode_skp : decode 0b1110_0010_1001_1110#16 = .ok (.skp 2) := by decide
theorem test_decode_sknp : decode 0b1110_0010_1010_0001#16 = .ok (.sknp 2) := by decide
theorem test_decode_ldVxDt : decode 0b1111_0110_0000_0111#16 = .ok (.ldVxDt 6) := by decide
theorem test_decode_ldVxK : decode 0b1111_0011_0000_1010#16 = .ok (.ldVxK 3) := by decide
theorem test_decode_ldDtVx : decode 0b1111_0001_0001_0101#16 = .ok (.ldDtVx 1) := by decide
theorem test_decode_ldStVx : decode 0b1111_0001_0001_1000#16 = .ok (.ldStVx 1) := by decide
theorem test_decode_addI : decode 0b1111_0100_0001_1110#16 = .ok (.addI 4) := by decide
theorem test_decode_ldF : decode 0b1111_0000_0010_1001#16 = .ok (.ldF 0) := by decide
theorem test_decode_ldB : decode 0b1111_0101_0011_0011#16 = .ok (.ldB 5) := by decide
theorem test_decode_dump : decode 0b1111_0001_0101_0101#16 = .ok (.dump 1) := by decide
theorem test_decode_load : decode 0b1111_0010_0110_0101#16 = .ok (.load 2) := by decide

/-- R53: words near the two literals are the catch-all. -/
theorem test_decode_near_literals : decode 0x00EF#16 = .ok (.sys 0x0EF#12) ∧ decode 0x0FEE#16 = .ok (.sys 0xFEE#12) := by decide
/-- V7 to V12. -/
theorem test_decode_failures :
    decode 0x8008#16 = .error (.noPattern 0x8008#16) ∧ decode 0x800F#16 = .error (.noPattern 0x800F#16) ∧
    decode 0xE000#16 = .error (.noPattern 0xE000#16) ∧ decode 0xE09F#16 = .error (.noPattern 0xE09F#16) ∧
    decode 0xF000#16 = .error (.noPattern 0xF000#16) ∧ decode 0xF0FF#16 = .error (.noPattern 0xF0FF#16) := by decide
/-- R38, R48: the byte at the lower address is the high one, and two bytes are needed. -/
theorem test_decodeBytes : decodeBytes [0x6A#8, 0x3C#8, 0x77#8] = .ok (.ldImm 10 0x3C#8, [0x77#8]) ∧
    decodeBytes [0x6A#8] = .error .truncated := by decide
theorem test_decodeTableWord : decodeTableWord 16 0x6A3C = some (.ldImm 10 0x3C#8) ∧ decodeTableWord 16 0x8008 = none := by decide

/-! ### One step on a small state -/

/-- The default start state of the vectors, `pc = 0x200`, with `w` stored there; the rest is as in `s`. -/
def place (s : State) (w : Nat) : State := (s.setPc 0x200#16).withFetchWord 16 w

/-- What the next state of one cycle shows, if there is one. -/
def shows {α : Type} (s : State) (f : State → α) : Option α :=
  match step s with
  | .next t => some (f t)
  | .fault _ => none
  | .refused _ => none

/-- A state with two registers set. -/
def regs2 (x : Reg) (a : Byte) (y : Reg) (b : Byte) : State := (State.reset.setV x a).setV y b

/-- A state with the index register set. -/
def withI (i : Word) : State := State.reset.setI i

/-- V15. -/
theorem test_jp : shows (place State.reset 0x1300) (·.pc) = some 0x300#16 := by decide
/-- V19: the sum is not masked. -/
theorem test_jpV0 : shows (place (State.reset.setV 0 0xFF#8) 0xBFFF) (·.pc) = some 0x10FE#16 := by decide
/-- V20: bits 11 to 8 select no register. -/
theorem test_jpV0_is_v0 : shows (place (regs2 0 0x04#8 5 0x70#8) 0xB5FF) (·.pc) = some 0x603#16 := by decide
/-- V21. -/
theorem test_call : shows (place State.reset 0x2300) (fun t => (t.pc, t.stack)) = some (0x300#16, [0x202#16]) := by decide
/-- V25, its last cycle. -/
theorem test_call_overflow : shows (place (State.reset.setStack (List.replicate 16 0x202#16)) 0x2200)
    (fun t => (t.fault, t.pc, t.stack.length)) = some (some (.stackOverflow 0x200#16), 0x200#16, 16) := by decide
/-- V23, its first cycle, with an older entry below. -/
theorem test_ret : shows (place (State.reset.setStack [0x204#16, 0x1000#16]) 0x00EE)
    (fun t => (t.pc, t.stack)) = some (0x1000#16, [0x204#16]) := by decide
/-- V26. -/
theorem test_ret_underflow : shows (place State.reset 0x00EE) (fun t => (t.fault, t.pc)) =
    some (some (.stackUnderflow 0x200#16), 0x200#16) := by decide
/-- V35. -/
theorem test_sys : shows (place State.reset 0x00E1) (fun t => (t.fault, t.pc)) =
    some (some (.unsupportedNativeCall 0x00E1#16 0x200#16), 0x200#16) := by decide
/-- L1.7. -/
theorem test_seImm : shows (place (State.reset.setV 3 0x10#8) 0x3310) (·.pc) = some 0x204#16 ∧
    shows (place (State.reset.setV 3 0x10#8) 0x3311) (·.pc) = some 0x202#16 := by decide
/-- L1.7. -/
theorem test_sneImm : shows (place (State.reset.setV 3 0x10#8) 0x4311) (·.pc) = some 0x204#16 ∧
    shows (place (State.reset.setV 3 0x10#8) 0x4310) (·.pc) = some 0x202#16 := by decide
/-- V28, V29. -/
theorem test_seReg : shows (place (regs2 10 0x03#8 11 0x03#8) 0x5AB7) (·.pc) = some 0x204#16 ∧
    shows (place (regs2 10 0x03#8 11 0x04#8) 0x5AB7) (·.pc) = some 0x202#16 := by decide
/-- L1.7, V30. -/
theorem test_sneReg : shows (place (regs2 1 0x07#8 2 0x08#8) 0x9120) (·.pc) = some 0x204#16 ∧
    shows (place (State.reset.setV 1 0x09#8) 0x9110) (·.pc) = some 0x202#16 := by decide
/-- V36. -/
theorem test_ldImm : shows (place State.reset 0x6A3C) (fun t => (t.getV 10, t.pc)) = some (0x3C#8, 0x202#16) := by decide
/-- V38. -/
theorem test_addImm : shows (place (regs2 0 0xFF#8 15 0x55#8) 0x7002) (fun t => (t.getV 0, t.getV 15)) =
    some (0x01#8, 0x55#8) := by decide
/-- V40. -/
theorem test_ldReg : shows (place (State.reset.setV 2 0x55#8) 0x8120) (·.getV 1) = some 0x55#8 := by decide
/-- V41. -/
theorem test_orReg : shows (place ((regs2 1 0x0F#8 2 0xF0#8).setV 15 0x55#8) 0x8121) (fun t => (t.getV 1, t.getV 15)) =
    some (0xFF#8, 0x55#8) := by decide
/-- V42. -/
theorem test_andReg : shows (place (regs2 1 0x3C#8 2 0x0F#8) 0x8122) (·.getV 1) = some 0x0C#8 := by decide
/-- V43. -/
theorem test_xorReg : shows (place (regs2 1 0x3C#8 2 0x0F#8) 0x8123) (·.getV 1) = some 0x33#8 := by decide
/-- V45, V46. -/
theorem test_addReg : shows (place (regs2 0 0xFF#8 1 0x01#8) 0x8014) (fun t => (t.getV 0, t.getV 15)) = some (0x00#8, 0x01#8) ∧
    shows (place ((regs2 0 0x01#8 1 0x01#8).setV 15 0x77#8) 0x8014) (fun t => (t.getV 0, t.getV 15)) =
      some (0x02#8, 0x77#8) := by decide
/-- V48, V49: VF as the destination. -/
theorem test_addReg_into_vf : shows (place (regs2 1 0x80#8 15 0x80#8) 0x8F14) (·.getV 15) = some 0x01#8 ∧
    shows (place (regs2 1 0x02#8 15 0x01#8) 0x8F14) (·.getV 15) = some 0x03#8 := by decide
/-- V51, V52. -/
theorem test_subReg : shows (place (regs2 0 0x00#8 1 0x01#8) 0x8015) (fun t => (t.getV 0, t.getV 15)) = some (0xFF#8, 0x01#8) ∧
    shows (place ((regs2 0 0x05#8 1 0x03#8).setV 15 0x44#8) 0x8015) (fun t => (t.getV 0, t.getV 15)) =
      some (0x02#8, 0x44#8) := by decide
/-- V53. -/
theorem test_subReg_equal : shows (place (regs2 0 0x05#8 15 0x44#8) 0x8005) (fun t => (t.getV 0, t.getV 15)) =
    some (0x00#8, 0x44#8) := by decide
/-- V57, V58. -/
theorem test_shr : shows (place (State.reset.setV 2 0x05#8) 0x8126) (fun t => (t.getV 1, t.getV 15)) = some (0x02#8, 0x01#8) ∧
    shows (place (regs2 0 0x04#8 1 0xFF#8) 0x8106) (fun t => (t.getV 1, t.getV 15)) = some (0x02#8, 0x00#8) := by decide
/-- V59: the flag overwrites the result. -/
theorem test_shr_into_vf : shows (place (State.reset.setV 2 0x02#8) 0x8F26) (·.getV 15) = some 0x00#8 := by decide
/-- V64, V65, under the default policy. -/
theorem test_subn : shows (place ((regs2 1 0x05#8 2 0x03#8).setV 15 0x44#8) 0x8127) (fun t => (t.getV 1, t.getV 15)) =
      some (0xFE#8, 0x01#8) ∧
    shows (place ((regs2 1 0x03#8 2 0x05#8).setV 15 0x44#8) 0x8127) (fun t => (t.getV 1, t.getV 15)) =
      some (0x02#8, 0x44#8) := by decide

/-- A state with explicit parameters. -/
def withPolicies (s : State) (o : Config.OddPcPolicy) (f : Config.SubnFlagPolicy) : State :=
  { s with params := { fontBase := 0, reservedImage := [], oddPc := o, subnFlag := f } }

/-- V64, V65, under `canonical`. -/
theorem test_subn_canonical :
    shows (place (withPolicies ((regs2 1 0x05#8 2 0x03#8).setV 15 0x44#8) .fault .canonical) 0x8127)
      (fun t => (t.getV 1, t.getV 15)) = some (0xFE#8, 0x00#8) ∧
    shows (place (withPolicies ((regs2 1 0x03#8 2 0x05#8).setV 15 0x44#8) .fault .canonical) 0x8127)
      (fun t => (t.getV 1, t.getV 15)) = some (0x02#8, 0x01#8) := by decide
/-- V61, V62. -/
theorem test_shl : shows (place (State.reset.setV 2 0x81#8) 0x812E) (fun t => (t.getV 1, t.getV 15)) = some (0x02#8, 0x01#8) ∧
    shows (place (regs2 2 0x40#8 15 0x01#8) 0x812E) (fun t => (t.getV 1, t.getV 15)) = some (0x80#8, 0x00#8) := by decide
/-- V63. -/
theorem test_shl_into_vf : shows (place (State.reset.setV 15 0x81#8) 0x8FFE) (·.getV 15) = some 0x01#8 := by decide
/-- V70. -/
theorem test_ldI : shows (place State.reset 0xA2F0) (fun t => (t.i, t.pc)) = some (0x02F0#16, 0x202#16) := by decide
/-- V72, V73. -/
theorem test_addI : shows (place ((withI 0x0FFF#16).setV 1 0x01#8) 0xF11E) (·.i) = some 0x1000#16 ∧
    shows (place ((withI 0xFFFF#16).setV 1 0x01#8) 0xF11E) (·.i) = some 0x0000#16 := by decide
/-- V75, the free answer left free. -/
theorem test_rnd : shows (place State.reset 0xC50F) (·.getV 5) = some (State.reset.randomAnswer &&& 0x0F#8) := by rfl
/-- V76: the call is made with a zero mask too. -/
theorem test_rnd_asks : shows (place State.reset 0xC500) (fun t => (t.calls, t.draws)) = some ([.randomByte], 1) := by decide
/-- V78. -/
theorem test_cls : shows (place State.reset 0x00E0) (fun t => (t.calls, t.pc)) = some ([.clearScreen], 0x202#16) := by decide

/-- The state of V79. -/
def spriteState : State :=
  (((withI 0x300#16).setV 0 0x05#8).setV 1 0x06#8).setMem (Memory.set [] 0x300 0xF0#8)

/-- V79, V80: the request, and VF on either answer. -/
theorem test_drw : shows (place spriteState 0xD011) (·.calls) = some [.requestDraw 0x05#8 0x06#8 [0xF0#8]] ∧
    shows (place spriteState 0xD011) (·.getV 15) =
      some (if State.reset.drawAnswer 0x05#8 0x06#8 [0xF0#8] then 1#8 else 0#8) := ⟨by decide, rfl⟩
/-- V83: no draw, VF kept. -/
theorem test_drw_out_of_range : shows (place ((withI 0x0FFF#16).setV 15 0x07#8) 0xD012) (fun t => (t.fault, t.calls, t.getV 15)) =
    some (some (.outOfBoundsAccess 0x200#16 0x1000), [], 0x07#8) := by decide
/-- V86, V87, the answer left free. -/
theorem test_skp : shows (place (State.reset.setV 2 0x0A#8) 0xE29E) (·.pc) =
    some (if State.reset.keyAnswer 0x0A#8 then 0x204#16 else 0x202#16) := by rfl
/-- V90: a value of 16 or more is passed whole. -/
theorem test_skp_asks : shows (place (State.reset.setV 2 0x20#8) 0xE29E) (·.calls) = some [.isKeyDown 0x20#8] := by decide
/-- V88, V89, the answer left free. -/
theorem test_sknp : shows (place (State.reset.setV 2 0x0A#8) 0xE2A1) (·.pc) =
    some (if State.reset.keyAnswer 0x0A#8 then 0x202#16 else 0x204#16) := by
  cases h : State.reset.keyAnswer 0x0A#8
  · show some (if (!State.reset.keyAnswer 0x0A#8) = true then 0x204#16 else 0x202#16) = _
    rw [h]; rfl
  · show some (if (!State.reset.keyAnswer 0x0A#8) = true then 0x204#16 else 0x202#16) = _
    rw [h]; rfl
/-- V88, V89. -/
theorem test_sknp_asks : shows (place (State.reset.setV 2 0x0A#8) 0xE2A1) (fun t => (t.calls, t.draws)) =
    some ([.isKeyDown 0x0A#8], 1) := by decide
/-- V91. -/
theorem test_ldVxK : shows (place State.reset 0xF30A) (fun t => (t.awaiting, t.pc, t.getV 3)) =
    some (some 3, 0x202#16, 0x00#8) := by decide
/-- V92. -/
theorem test_ldVxK_held : step ((place State.reset 0x1300).setAwaiting (some 3)) =
    .next ((place State.reset 0x1300).setAwaiting (some 3)) := by rfl
/-- V95. -/
theorem test_ldVxDt : shows (place (State.reset.setDt 0x3C#8) 0xF007) (fun t => (t.getV 0, t.dt)) = some (0x3C#8, 0x3C#8) := by decide
/-- V96. -/
theorem test_ldDtVx : shows (place (State.reset.setV 1 0x10#8) 0xF115) (fun t => (t.dt, t.st)) = some (0x10#8, 0x00#8) := by decide
/-- V97. -/
theorem test_ldStVx : shows (place (State.reset.setV 1 0x02#8) 0xF118) (fun t => (t.dt, t.st)) = some (0x00#8, 0x02#8) := by decide
/-- V102, V103: `FONT_BASE = 0x000` is the vectors' premise. -/
theorem test_ldF : shows (place (withPolicies (State.reset.setV 0 0x0A#8) .fault .design) 0xF029) (·.i) = some 0x032#16 ∧
    shows (place (withPolicies (State.reset.setV 0 0xFF#8) .fault .design) 0xF029) (·.i) = some 0x4FB#16 := by decide

/-- Three bytes of memory. -/
def bytes3 (t : State) (a : Nat) : List Byte := Memory.getRange t.mem a 3

/-- V104, V107. -/
theorem test_ldB : shows (place ((withI 0x300#16).setV 5 0x7B#8) 0xF533) (fun t => (bytes3 t 0x300, t.i)) =
      some ([0x01#8, 0x02#8, 0x03#8], 0x300#16) ∧
    shows (place ((withI 0xFFD#16).setV 5 0xFF#8) 0xF533) (bytes3 · 0xFFD) = some [0x02#8, 0x05#8, 0x05#8] := by decide
/-- V108. -/
theorem test_ldB_out_of_range : shows (place ((withI 0xFFE#16).setV 5 0xFF#8) 0xF533) (fun t => (t.fault, bytes3 t 0xFFE)) =
    some (some (.outOfBoundsAccess 0x200#16 0x1000), [0#8, 0#8, 0#8]) := by decide
/-- V109. -/
theorem test_dump : shows (place (((withI 0x400#16).setV 0 0x11#8).setV 1 0x22#8) 0xF155) (fun t => (bytes3 t 0x400, t.i)) =
    some ([0x11#8, 0x22#8, 0x00#8], 0x400#16) := by decide
/-- V112. -/
theorem test_dump_out_of_range : shows (place ((withI 0xFF1#16).setV 0 0x11#8) 0xFF55) (fun t => (t.fault, bytes3 t 0xFF1)) =
    some (some (.outOfBoundsAccess 0x200#16 0x1000), [0#8, 0#8, 0#8]) := by decide
/-- V114. -/
theorem test_load : shows (place ((withI 0x300#16).setMem (Memory.setRange [] 0x300 [0x01#8, 0x02#8, 0x03#8])) 0xF265)
    (fun t => (t.getV 0, t.getV 1, t.getV 2, t.getV 3, t.i)) = some (0x01#8, 0x02#8, 0x03#8, 0x00#8, 0x300#16) := by decide
/-- V116. -/
theorem test_load_out_of_range : shows (place ((withI 0xFF1#16).setV 0 0x11#8) 0xFF65) (fun t => (t.fault, t.getV 0)) =
    some (some (.outOfBoundsAccess 0x200#16 0x1000), 0x11#8) := by decide

/-! ### The cycle and the host's operations -/

/-- V1, V2: the last fetch in range, and the first out of it. -/
theorem test_fetch_range : shows ((State.reset.setPc 0xFFE#16).withFetchWord 16 0x6001) (fun t => (t.getV 0, t.pc)) =
      some (0x01#8, 0x1000#16) ∧
    shows (State.reset.setPc 0x1000#16) (fun t => (t.fault, t.pc)) =
      some (some (.outOfBoundsAccess 0x1000#16 0x1000), 0x1000#16) := by decide
/-- V3, V4: the alignment error wins. -/
theorem test_fetch_odd : shows (State.reset.setPc 0xFFF#16) (·.fault) = some (some (.misalignedFetch 0xFFF#16)) ∧
    shows (withPolicies (State.reset.setPc 0xFFF#16) .fetch .design) (·.fault) =
      some (some (.outOfBoundsAccess 0xFFF#16 0x1000)) := by decide
/-- V6: an odd fetch under `fetch`. -/
theorem test_fetch_policy : shows (withPolicies ((State.reset.setPc 0x201#16).setMem
    (Memory.setRange [] 0x200 [0x12#8, 0x01#8, 0x12#8, 0x34#8])) .fetch .design) (·.fault) =
    some (some (.unsupportedNativeCall 0x0112#16 0x201#16)) := by decide
/-- V7. -/
theorem test_decode_failure_raised : shows (place State.reset 0x8008) (fun t => (t.fault, t.pc)) =
    some (some (.decodeFailure 0x8008#16 0x200#16), 0x200#16) := by decide
/-- V13, L1.8: the four outcomes in R63's order. -/
theorem test_outcomes :
    cycleOutcome (State.reset.setFault (some (.stackUnderflow 0x200#16))) State.reset = .faulted (.stackUnderflow 0x200#16) ∧
    cycleOutcome (State.reset.setAwaiting (some 3)) State.reset = .awaitingKey ∧
    shows (place State.reset 0x00EE) (cycleOutcome (place State.reset 0x00EE)) = some (.error (.stackUnderflow 0x200#16)) ∧
    shows (place State.reset 0x1300) (cycleOutcome (place State.reset 0x1300)) = some .ok := by decide
/-- V93, V94. -/
theorem test_supplyKey : supplyKey 7 (State.reset.setAwaiting (some 3)) = .next (State.reset.setV 3 0x07#8) ∧
    supplyKey 5 State.reset = .next State.reset ∧ supplyKey 16 State.reset = .refused (.keyOutOfRange 16) := ⟨rfl, rfl, rfl⟩
/-- V98, V99. -/
theorem test_tickTimers : (tickTimers (State.reset.setDt 0x02#8)).dt = 0x01#8 ∧
    (tickTimers (tickTimers (State.reset.setSt 0x01#8))).st = 0x00#8 ∧ (tickTimers State.reset).dt = 0x00#8 := by decide
/-- V117. -/
theorem test_reset_first_cycle : shows (hostReset State.reset) (fun t => (t.fault, t.pc)) =
    some (some (.unsupportedNativeCall 0x0000#16 0x0000#16), 0x0000#16) := by decide
/-- V118. -/
theorem test_load_then_run : (runOps [.reset, .loadProgram [0x60#8, 0x01#8], .runOneCycle] (State.reset.setDt 0x09#8)).map
    (fun t => (t.getV 0, t.pc, t.dt)) = some (0x01#8, 0x202#16, 0x00#8) := by decide
/-- L1.6. -/
theorem test_load_limit : Config.progMax = 3584 ∧ ∀ image : List Byte, image.length = 3585 →
    loadProgram image State.reset = .fault (.programTooLarge 3585) :=
  ⟨rfl, fun image h => by rw [loadProgram, h]; rfl⟩
/-- R133 with a `RESERVED_IMAGE`: what lies past 0x1FF of it is not used. -/
theorem test_reserved_image :
    Memory.get (resetMemory { fontBase := 0, reservedImage := [0x07#8, 0#8, 0x09#8], oddPc := .fault, subnFlag := .design }) 2 =
      0x09#8 := by decide
/-- Writing a 0 takes the entry out, so equal memories are equal data. -/
theorem test_memory_canonical : Memory.set (Memory.set [] 0x300 0x05#8) 0x300 0x00#8 = [] ∧
    Memory.wf (Memory.setRange [] 0xFFD [0x02#8, 0x05#8, 0x05#8]) ∧ ¬Memory.wf [(0x1000, 0x05#8)] := by decide

/-! ### Witnesses: for each obligation with hypotheses, values that meet them, each clause at a boundary of its range -/

/-- A ready state at 0x200 with `JP 0x200` (a spin) stored there, and the registers of the tests around it. -/
def spin : State := place State.reset 0x1200

/-- A state of the invariant with the highest register block and the depth at its bound. -/
def full : State := ((withI 0xFF0#16).setV 15 0xFF#8).setStack (List.replicate 16 0x1000#16)

theorem inv_of {s : State} (hm : Memory.wf s.mem) (hd : s.stack.length ≤ 16)
    (hr : (s.stack.all fun w => decide (w.toNat ≤ 0x1000)) = true) (hp : s.pc.toNat ≤ 0x10FE) (hf : s.fault = none) : Inv s :=
  { memory := hm, depth := hd, returns := fun w h => of_decide_eq_true (List.all_eq_true.mp hr w h), pcBound := hp,
    oneWait := Or.inl hf }

theorem witness_DecodeEncodeAgree : (Instr.sys 0x0E1#12).wellFormed = true ∧ (Instr.sys 0xFFF#12).wellFormed = true ∧
    (Instr.drw 15 15 0xF#4).wellFormed = true := by decide
/-- Both disjuncts of the conclusion are needed. -/
theorem witness_EncodeDecodeAgree : decode 0x6A3C#16 = .ok (.ldImm 10 0x3C#8) ∧
    decode 0x5AB7#16 = .ok (.seReg 10 11) ∧ encode (.seReg 10 11) = 0x5AB0#16 := by decide
theorem witness_DecodeFailsExactlyOn : decode 0x8AB8#16 = .error (.noPattern 0x8AB8#16) ∧
    decode 0xEF9F#16 = .error (.noPattern 0xEF9F#16) ∧ decode 0xF000#16 = .error (.noPattern 0xF000#16) := by decide
/-- Clause 1, and clause 2 with a row of its own and with the catch-all row. -/
theorem witness_OpcodeMapIsUnambiguous : decode 0x00E0#16 = .ok .cls ∧ selectsRow 0x812E#16 (.shl 0 0) = true ∧
    selectsRow 0x00E0#16 (.sys 0#12) = true := by decide

theorem witness_StepRunsDecodedInstruction : Ready spin ∧ spin.pc.toNat ≤ 0xFFE ∧
    ¬(spin.pc.toNat % 2 = 1 ∧ spin.params.oddPc = .fault) ∧
    decode (Memory.get spin.mem spin.pc.toNat ++ Memory.get spin.mem (spin.pc.toNat + 1)) = .ok (.jp 0x200#12) := by
  decide
/-- The last address in range, and an odd one under `fetch`. -/
theorem witness_FetchReadsTwoBytesOrRaises :
    ((State.reset.setPc 0xFFE#16).pc.toNat ≤ 0xFFE ∧
      ¬((State.reset.setPc 0xFFE#16).pc.toNat % 2 = 1 ∧ (State.reset.setPc 0xFFE#16).params.oddPc = .fault)) ∧
    ¬((withPolicies (State.reset.setPc 0x201#16) .fetch .design).pc.toNat % 2 = 1 ∧
      (withPolicies (State.reset.setPc 0x201#16) .fetch .design).params.oddPc = .fault) := by decide
/-- `NextFetchChecked` (in the statements on `JP`, `JP V0`, `RET`, the skips and the fetch): an odd `pc`; 0xFFF under `fetch`; 0x1000. -/
theorem witness_NextFetchChecked :
    (Ready (State.reset.setPc 0xFFF#16) ∧ (State.reset.setPc 0xFFF#16).pc.toNat % 2 = 1 ∧
      (State.reset.setPc 0xFFF#16).params.oddPc = .fault) ∧
    (Ready (withPolicies (State.reset.setPc 0xFFF#16) .fetch .design) ∧
      ¬((withPolicies (State.reset.setPc 0xFFF#16) .fetch .design).pc.toNat % 2 = 1 ∧
        (withPolicies (State.reset.setPc 0xFFF#16) .fetch .design).params.oddPc = .fault) ∧
      0xFFF ≤ (withPolicies (State.reset.setPc 0xFFF#16) .fetch .design).pc.toNat) ∧
    (Ready (State.reset.setPc 0x1000#16) ∧ ¬((State.reset.setPc 0x1000#16).pc.toNat % 2 = 1 ∧
        (State.reset.setPc 0x1000#16).params.oddPc = .fault) ∧ 0xFFF ≤ (State.reset.setPc 0x1000#16).pc.toNat) := by decide
theorem witness_DecodeFailureIsRaised : Ready (place State.reset 0x8008) ∧
    fetchWord (place State.reset 0x8008) = .ok 0x8008#16 ∧ decode 0x8008#16 = .error (.noPattern 0x8008#16) := by decide
theorem witness_ErringCycleCommitsNothing : (place State.reset 0x00EE).fault = none ∧
    step (place State.reset 0x00EE) = .next ((place State.reset 0x00EE).setFault (some (.stackUnderflow 0x200#16))) ∧
    ((place State.reset 0x00EE).setFault (some (.stackUnderflow 0x200#16))).fault = some (.stackUnderflow 0x200#16) :=
  ⟨rfl, rfl, rfl⟩
/-- The state, and an operation of the third clause that answers a next state. -/
theorem witness_LatchHoldsUntilReset :
    (State.reset.setFault (some (.stackUnderflow 0x200#16))).fault = some (.stackUnderflow 0x200#16) ∧
    HostOp.tickTimers ≠ .reset ∧ perform .tickTimers (State.reset.setFault (some (.stackUnderflow 0x200#16))) =
      .next (tickTimers (State.reset.setFault (some (.stackUnderflow 0x200#16)))) := ⟨rfl, by decide, rfl⟩
theorem witness_SpinLeavesStateUnchanged : Ready spin ∧ ¬(spin.pc.toNat % 2 = 1 ∧ spin.params.oddPc = .fault) ∧
    spin.pc.toNat ≤ 0xFFE ∧ spin.pc.toNat = (0x200#12).toNat ∧
    Memory.get spin.mem spin.pc.toNat ++ Memory.get spin.mem (spin.pc.toNat + 1) = formatA 0x1#4 0x200#12 := by decide

/-- Depth 15, the last that can call, and depth 16. -/
theorem witness_CallPushesReturnAddress : (State.reset.setStack (List.replicate 15 0x202#16)).stack.length < 16 ∧
    full.stack.length = 16 := by decide
/-- The two clauses, and the invariant of the first. -/
theorem witness_ReturnPopsPc : (State.reset.setStack [0x204#16, 0x1000#16]).stack = [0x204#16] ++ [0x1000#16] ∧
    Inv (State.reset.setStack [0x204#16, 0x1000#16]) ∧ State.reset.stack = [] :=
  ⟨rfl, inv_of (by decide) (by decide) (by decide) (by decide) rfl, rfl⟩
/-- A state, and one a subroutine could come back in with the stack as the call left it. -/
theorem witness_CallThenReturnComesBack : (State.reset.setStack (List.replicate 15 0x202#16)).stack.length < 16 ∧
    ∃ t, exec (.call 0x300#12) State.reset = .next t ∧ ((t.setV 3 0x07#8).setPc 0x340#16).stack = t.stack :=
  ⟨by decide, _, rfl, rfl⟩
theorem witness_SysRaisesUnsupported : (0x000#12 : Addr12) ≠ 0x0E0#12 ∧ (0x000#12 : Addr12) ≠ 0x0EE#12 := by decide
/-- Sums of 256 and 255, and a destination of VF without a carry. -/
theorem witness_AddWithCarrySetsOrLeavesFlag :
    255 < ((regs2 0 0xFF#8 1 0x01#8).getV 0).toNat + ((regs2 0 0xFF#8 1 0x01#8).getV 1).toNat ∧
    ((regs2 0 0xFE#8 1 0x01#8).getV 0).toNat + ((regs2 0 0xFE#8 1 0x01#8).getV 1).toNat ≤ 255 ∧ (0 : Reg) ≠ 15 ∧
    ((regs2 15 0xFE#8 1 0x01#8).getV 15).toNat + ((regs2 15 0xFE#8 1 0x01#8).getV 1).toNat ≤ 255 := by decide
/-- A borrow by one, equal operands, and a destination of VF without a borrow. -/
theorem witness_SubWithBorrowSetsOrLeavesFlag :
    ((regs2 0 0x00#8 1 0x01#8).getV 0).toNat < ((regs2 0 0x00#8 1 0x01#8).getV 1).toNat ∧
    ((regs2 0 0x05#8 1 0x05#8).getV 1).toNat ≤ ((regs2 0 0x05#8 1 0x05#8).getV 0).toNat ∧ (0 : Reg) ≠ 15 ∧
    ((regs2 15 0x05#8 1 0x05#8).getV 1).toNat ≤ ((regs2 15 0x05#8 1 0x05#8).getV 15).toNat := by decide
theorem witness_ShiftRightCapturesLowBit : (14 : Reg) ≠ 15 := by decide
theorem witness_ShiftLeftCapturesHighBit : (14 : Reg) ≠ 15 := by decide
/-- Each policy; a borrow by one, equal operands, and VF as the destination with equal operands. -/
theorem witness_ReverseSubFollowsFlagPolicy :
    State.reset.params.subnFlag = .design ∧ (withPolicies State.reset .fault .canonical).params.subnFlag = .canonical ∧
    (14 : Reg) ≠ 15 ∧
    ((regs2 1 0x05#8 2 0x04#8).getV 2).toNat < ((regs2 1 0x05#8 2 0x04#8).getV 1).toNat ∧
    ((regs2 1 0x05#8 2 0x05#8).getV 1).toNat ≤ ((regs2 1 0x05#8 2 0x05#8).getV 2).toNat ∧
    ((regs2 15 0x05#8 2 0x05#8).getV 15).toNat ≤ ((regs2 15 0x05#8 2 0x05#8).getV 2).toNat := by decide
theorem witness_RandomIsMasked : (0x00#8 : Byte) = 0#8 ∧ (0xFF#8 : Byte) = 0xFF#8 ∧ (4 : Reg) ≠ 5 := by decide
/-- One byte past the end, height 0 anywhere, and the last byte. -/
theorem witness_DrawSpriteRequestsAndSetsFlag :
    ((0x2#4 : Nibble) ≠ 0#4 ∧ 0x1000 < (withI 0x0FFF#16).i.toNat + (0x2#4).toNat) ∧
    (0x0#4 : Nibble) = 0#4 ∧ (withI 0x0FFF#16).i.toNat + (0x1#4).toNat ≤ 0x1000 := by decide
theorem witness_KeyWaitSuspendsUntilSupplied : Ready State.reset ∧ 15 < 16 := by decide
/-- I = 0xFFE raises, I = 0xFFD does not. -/
theorem witness_StoreBcdWritesThreeDigits : Inv (withI 0xFFE#16) ∧ 0x1000 ≤ (withI 0xFFE#16).i.toNat + 2 ∧
    Inv (withI 0xFFD#16) ∧ (withI 0xFFD#16).i.toNat + 2 < 0x1000 :=
  ⟨inv_of (by decide) (by decide) (by decide) (by decide) rfl, by decide,
   inv_of (by decide) (by decide) (by decide) (by decide) rfl, by decide⟩
/-- All sixteen registers: I = 0xFF1 raises, I = 0xFF0 does not. -/
theorem witness_DumpStoresRegisters : Inv (withI 0xFF1#16) ∧ 0x1000 ≤ (withI 0xFF1#16).i.toNat + (15 : Reg).val ∧
    Inv full ∧ full.i.toNat + (15 : Reg).val < 0x1000 ∧ (15 : Reg) ≤ 15 :=
  ⟨inv_of (by decide) (by decide) (by decide) (by decide) rfl, by decide,
   inv_of (by decide) (by decide) (by decide) (by decide) rfl, by decide,
   by decide⟩
/-- As for the dump; and a register above `V[x]`. -/
theorem witness_LoadReadsRegisters : 0x1000 ≤ (withI 0xFF1#16).i.toNat + (15 : Reg).val ∧
    full.i.toNat + (15 : Reg).val < 0x1000 ∧ (14 : Reg) < 15 := by decide
theorem witness_DumpThenLoadRestores : Inv full ∧ full.i.toNat + (15 : Reg).val < 0x1000 ∧
    ∃ t, exec (.dump 15) full = .next t ∧ ((t.setV 0 0x77#8).setPc 0x400#16).mem = t.mem ∧
      ((t.setV 0 0x77#8).setPc 0x400#16).i = t.i :=
  ⟨inv_of (by decide) (by decide) (by decide) (by decide) rfl, by decide,
   _, rfl, rfl, rfl⟩
/-- Program 6's store over the next word. -/
theorem witness_StoreIsSeenByNextFetch : Inv ((withI 0x208#16).setPc 0x206#16) ∧
    ((withI 0x208#16).setPc 0x206#16).i.toNat + (1 : Reg).val < 0x1000 ∧ (0 : Reg).val + 1 ≤ (1 : Reg).val ∧
    (((withI 0x208#16).setPc 0x206#16).pc + 2#16).toNat = ((withI 0x208#16).setPc 0x206#16).i.toNat + (0 : Reg).val ∧
    ¬((((withI 0x208#16).setPc 0x206#16).pc + 2#16).toNat % 2 = 1 ∧
      ((withI 0x208#16).setPc 0x206#16).params.oddPc = .fault) :=
  ⟨inv_of (by decide) (by decide) (by decide) (by decide) rfl, by decide,
   by decide, by decide, by decide⟩

/-- The two halves of memory, and the latch with the one operation that clears it. -/
theorem witness_HostResetRestoresEverything : 0x1FF < 0x200 ∧ 0x200 ≤ 0x200 ∧
    (State.reset.setFault (some (.stackUnderflow 0x200#16))).fault ≠ none ∧
    perform .reset (State.reset.setFault (some (.stackUnderflow 0x200#16))) =
      .next (hostReset (State.reset.setFault (some (.stackUnderflow 0x200#16)))) ∧
    (hostReset (State.reset.setFault (some (.stackUnderflow 0x200#16)))).fault = none :=
  ⟨by decide, by decide, by decide, rfl, rfl⟩
/-- 3585 bytes, and 3584. -/
theorem witness_LoadProgramPlacesImage : Inv State.reset ∧ 3584 < (List.replicate 3585 (0#8 : Byte)).length ∧
    (List.replicate 3584 (0#8 : Byte)).length ≤ 3584 ∧ 3583 < (List.replicate 3584 (0#8 : Byte)).length := by
  refine ⟨inv_of (by decide) (by decide) (by decide) (by decide) rfl, ?_⟩
  simp only [List.length_replicate]
  decide
theorem witness_FirstCycleFetchesEntryPoint : [0x60#8, 0x01#8].length ≤ 3584 ∧ State.reset.params.reservedImage = [] := by decide
/-- Keys 15 and 16; with and without a wait; and a run from a state of the invariant. -/
theorem witness_SupplyKeyEndsPendingWait : (15 < 16 ∧ (State.reset.setAwaiting (some 3)).awaiting = some 3) ∧
    State.reset.awaiting = none ∧ 16 ≤ 16 ∧ Inv State.reset ∧
    runOps [.supplyKey 7, .tickTimers] State.reset = some (tickTimers State.reset) :=
  ⟨by decide, rfl, by decide,
   inv_of (by decide) (by decide) (by decide) (by decide) rfl, rfl⟩
theorem witness_InspectStateShowsWholeState : 4095 < 4096 ∧ isAwaitingKey (State.reset.setAwaiting (some 3)) = true := by decide

/-- The reset state, and one at the bounds of the invariant. -/
theorem witness_StepKeepsInvariant : Inv spin ∧ Inv (full.setPc 0x10FE#16) :=
  ⟨inv_of (by decide) (by decide) (by decide) (by decide) rfl,
   inv_of (by decide) (by decide) (by decide) (by decide) rfl⟩
theorem witness_EveryRunKeepsInvariant : Inv spin ∧ runOps [.runOneCycle, .supplyKey 7] spin = some spin :=
  ⟨inv_of (by decide) (by decide) (by decide) (by decide) rfl, rfl⟩
theorem witness_PcNeverWraps : Inv spin ∧ step spin = .next spin ∧ fetchWord spin = .ok 0x1200#16 :=
  ⟨inv_of (by decide) (by decide) (by decide) (by decide) rfl, rfl, by decide⟩
/-- One instruction for each clause that names writers. -/
theorem witness_WritersOfEachPart :
    (∃ t, exec (.ldI 0x2F0#12) State.reset = .next t ∧ t.i ≠ State.reset.i) ∧
    (∃ t, exec (.call 0x300#12) State.reset = .next t ∧ t.stack ≠ State.reset.stack) ∧
    (∃ t, exec (.ldDtVx 1) (State.reset.setV 1 1#8) = .next t ∧ t.dt ≠ (State.reset.setV 1 1#8).dt) ∧
    (∃ t, exec (.ldStVx 1) (State.reset.setV 1 1#8) = .next t ∧ t.st ≠ (State.reset.setV 1 1#8).st) ∧
    (∃ t, exec (.ldVxK 1) State.reset = .next t ∧ t.awaiting ≠ State.reset.awaiting) ∧
    (∃ t, exec (.dump 15) full = .next t ∧ t.mem ≠ full.mem) ∧
    (∃ t, exec .cls State.reset = .next t ∧ t.calls ≠ State.reset.calls) :=
  ⟨⟨_, rfl, by decide⟩, ⟨_, rfl, by decide⟩, ⟨_, rfl, by decide⟩, ⟨_, rfl, by decide⟩, ⟨_, rfl, by decide⟩, ⟨_, rfl, by decide⟩,
   ⟨_, rfl, by decide⟩⟩
/-- A destination, and VF as a flag. -/
theorem witness_WritersOfEachRegister :
    (∃ t, exec (.ldImm 10 0x3C#8) State.reset = .next t ∧ t.getV 10 ≠ State.reset.getV 10) ∧
    (∃ t, exec (.shr 1 2) (State.reset.setV 2 0x05#8) = .next t ∧ t.getV 15 ≠ (State.reset.setV 2 0x05#8).getV 15) :=
  ⟨⟨_, rfl, by decide⟩, ⟨_, rfl, by decide⟩⟩
theorem witness_SoundTimerAndWaitsAreNeverRead : ∃ t, exec (.ldStVx 1) (State.reset.setV 1 1#8) = .next t := ⟨_, rfl⟩

end Sys2Proof.Tests
end

section
/-! SUPPORT. The proofs of the family 40_cycle.md. First the laws they need: the fetch and the first error of a cycle, one lemma per
case; what the meaning of an instruction can do to the fault latch; a held cycle and the outcomes. Then the obligations. -/

namespace Sys2Proof.Machine

/-! ### The fetch, case by case (40_cycle.md R65, R66) -/

theorem fetchWord_of_misaligned {s : State} (hm : s.pc.toNat % 2 = 1 ∧ s.params.oddPc = .fault) :
    fetchWord s = .error (.misalignedFetch s.pc) := if_pos hm

theorem fetchWord_of_out {s : State} (hm : ¬(s.pc.toNat % 2 = 1 ∧ s.params.oddPc = .fault)) (hr : 0xFFF ≤ s.pc.toNat) :
    fetchWord s = .error (.outOfBoundsAccess s.pc (max s.pc.toNat 0x1000)) := by
  rw [fetchWord, if_neg hm, firstOutOfRange_of_out (by omega) (by omega)]

theorem fetchWord_of_in {s : State} (hm : ¬(s.pc.toNat % 2 = 1 ∧ s.params.oddPc = .fault)) (hr : s.pc.toNat ≤ 0xFFE) :
    fetchWord s = .ok (wordOfBytes (Memory.get s.mem s.pc.toNat) (Memory.get s.mem (s.pc.toNat + 1))) := by
  rw [fetchWord, if_neg hm, firstOutOfRange_eq_none.mpr (by omega)]

/-! ### The errors of the fetch and of decode are raised (40_cycle.md R65, R66, R68) -/

theorem step_raises_of_fetch_error {s : State} {e : CycleError} (hs : Ready s) (hw : fetchWord s = .error e) :
    Raises (step s) s e := by
  simp only [Raises, step, startCycle_ready hs.1 hs.2, hw]
  rfl

theorem step_raises_of_decode_error {s : State} {w : Word} {r : DecodeReject} (hs : Ready s) (hw : fetchWord s = .ok w)
    (hd : decode w = .error r) : Raises (step s) s (.decodeFailure w s.pc) := by
  simp only [Raises, step, startCycle_ready hs.1 hs.2, hw, hd]
  rfl

/-! ### What an instruction can do to the latch (40_cycle.md R72) -/

/-- The two ways the meaning of an instruction ends, from the state `s` of the cycle's start: it commits and leaves the latch alone, or
it raises an error that records the fetch address, and nothing but the latch is written. It never faults and is never refused. -/
inductive CommitsOrRaises (s : State) : Host.Outcome State Fault Refusal → Prop where
  | commits {t : State} (hf : t.fault = s.fault) : CommitsOrRaises s (.next t)
  | raises {e : CycleError} (hp : e.pcFetch = s.pc) : CommitsOrRaises s (.next (s.setFault (some e)))

theorem commitsOrRaises_writeResult {s t : State} (x : Reg) (b : Byte) (f : Option Byte) (ht : t.fault = s.fault) :
    CommitsOrRaises s (writeResult x b f t) :=
  .commits (by simp [ht])

theorem commitsOrRaises_guardRange {s t : State} (base len : Nat) (ht : t.fault = s.fault) :
    CommitsOrRaises s (guardRange base len s t) := by
  unfold guardRange
  split
  · exact .raises rfl
  · exact .commits ht

theorem commitsOrRaises_execRet (s : State) : CommitsOrRaises s (execRet s) := by
  unfold execRet
  split
  · exact .raises rfl
  next w t hpop =>
    obtain ⟨l, -, rfl⟩ := State.pop_some hpop
    exact .commits rfl

theorem commitsOrRaises_execCall (nnn : Addr12) (s : State) : CommitsOrRaises s (execCall nnn s) := by
  unfold execCall
  split
  · exact .raises rfl
  next t hpush =>
    obtain ⟨rfl, -⟩ := State.push_some hpush
    exact .commits rfl

/-- The instructions by what can go wrong: the stack, the native call, an access through `I`, or nothing. -/
theorem commitsOrRaises_exec (i : Instr) (s : State) : CommitsOrRaises s (exec i s) := by
  cases i with
  | ret => exact commitsOrRaises_execRet s
  | call nnn => exact commitsOrRaises_execCall nnn s
  | sys _ => exact .raises rfl
  | drw _ _ _ => exact commitsOrRaises_guardRange _ _ (by simp)
  | ldB _ | dump _ | load _ => exact commitsOrRaises_guardRange _ _ rfl
  | ldImm _ _ | addImm _ _ | ldReg _ _ | orReg _ _ | andReg _ _ | xorReg _ _ | addReg _ _ | subReg _ _ | shr _ _ | subn _ _
  | shl _ _ | rnd _ _ => exact commitsOrRaises_writeResult _ _ _ rfl
  | cls | jp _ | jpV0 _ | seImm _ _ | sneImm _ _ | seReg _ _ | sneReg _ _ | ldI _ | addI _ | skp _ | sknp _ | ldVxDt _ | ldVxK _
  | ldDtVx _ | ldStVx _ | ldF _ => exact .commits rfl

/-- A step that sets a clear latch was a cycle that fetched, and raised the error: nothing else of it is kept. -/
theorem step_latches {s t : State} {e : CycleError} (hs : s.fault = none) (h : step s = .next t) (ht : t.fault = some e) :
    s.awaiting = none ∧ t = s.setFault (some e) ∧ e.pcFetch = s.pc := by
  rcases step_cases s with ⟨hheld, -⟩ | ⟨-, ha, ⟨e', hraise, hp⟩ | ⟨i, hexec, -⟩⟩
  · cases hheld.symm.trans h
    simp [hs] at ht
  · cases hraise.symm.trans h
    cases ht
    exact ⟨ha, rfl, hp⟩
  · have hc := commitsOrRaises_exec i s
    rw [← hexec, h] at hc
    cases hc with
    | commits hf => simp [hf, hs] at ht
    | raises hp =>
      cases ht
      exact ⟨ha, rfl, hp⟩

/-! ### Held cycles and outcomes (40_cycle.md R63) -/

theorem step_of_latched {s : State} {e : CycleError} (h : s.fault = some e) : step s = .next s := by
  simp [step, startCycle, h]

theorem cycleOutcome_of_latched {s : State} (t : State) {e : CycleError} (h : s.fault = some e) :
    cycleOutcome s t = .faulted e := by
  simp [cycleOutcome, h]

theorem cycleOutcome_of_raised {s t : State} {e : CycleError} (hs : Ready s) (ht : t.fault = some e) :
    cycleOutcome s t = .error e := by
  simp [cycleOutcome, hs.1, hs.2, ht]

/-! ### The obligations -/

/-- What the next cycle raises where `pc` cannot be fetched from, at every state. -/
theorem nextFetchChecked (s : State) : NextFetchChecked s := fun hs =>
  ⟨fun hodd hpol => step_raises_of_fetch_error hs (fetchWord_of_misaligned ⟨hodd, hpol⟩),
   fun hm hr => step_raises_of_fetch_error hs (fetchWord_of_out hm hr)⟩

/-- Settles O7: the three cases of the fetch. -/
theorem fetchReadsTwoBytesOrRaises : Obligations.FetchReadsTwoBytesOrRaises := fun s =>
  ⟨nextFetchChecked s, fun hr hm => fetchWord_of_in hm hr⟩

/-- Settles O8: the cycle ends at decode. -/
theorem decodeFailureIsRaised : Obligations.DecodeFailureIsRaised := fun _ _ _ => step_raises_of_decode_error

/-- Settles O9: by `step_latches` the cycle only wrote the latch, and a latched state is held. -/
theorem erringCycleCommitsNothing : Obligations.ErringCycleCommitsNothing := by
  intro s t e hs h ht
  obtain ⟨ha, hlatch, hp⟩ := step_latches hs h ht
  exact ⟨hlatch, hp, cycleOutcome_of_raised ⟨hs, ha⟩ ht, step_of_latched ht, cycleOutcome_of_latched t ht⟩

end Sys2Proof.Machine
end

section
/-! SUPPORT. The proofs of the family 41_control_flow.md. First the laws they need: the control-flow words decoded, frames of single
writes and of writes one after the other, and the meanings of the skips, the call and the return, one lemma per case. Then the
obligations. The check of the next fetch is `nextFetchChecked`. -/

namespace Sys2Proof

/-! ### Words of the families 0x0, 0x1, 0x2 and 0xB (30_encoding.md R53, R57)

Each family but 0x0 is decided by its nibble alone. -/

theorem decode_jp (nnn : Addr12) : decode (formatA 0x1#4 nnn) = .ok (.jp nnn) := by simp [decode]

theorem decode_call (nnn : Addr12) : decode (formatA 0x2#4 nnn) = .ok (.call nnn) := by simp [decode]

theorem decode_jpV0 (nnn : Addr12) : decode (formatA 0xB#4 nnn) = .ok (.jpV0 nnn) := by simp [decode]

/-- A word of family 0 is told from another word by its address field. -/
theorem formatA_zero_ne {nnn : Addr12} {w : Word} (h : nnn ≠ fieldNNN w) : formatA 0x0#4 nnn ≠ w := by
  rintro rfl
  simp at h

theorem decode_sys {nnn : Addr12} (hcls : nnn ≠ 0x0E0#12) (hret : nnn ≠ 0x0EE#12) :
    decode (formatA 0x0#4 nnn) = .ok (.sys nnn) := by
  have h1 : formatA 0x0#4 nnn ≠ 0x00E0#16 := formatA_zero_ne hcls
  have h2 : formatA 0x0#4 nnn ≠ 0x00EE#16 := formatA_zero_ne hret
  simp [decode, decode0, h1, h2]

/-! ### Words of the skips (30_encoding.md R57) -/

theorem decode_seImm (x : Reg) (kk : Byte) : decode (formatXK 0x3#4 x kk) = .ok (.seImm x kk) := by simp [decode]

theorem decode_sneImm (x : Reg) (kk : Byte) : decode (formatXK 0x4#4 x kk) = .ok (.sneImm x kk) := by simp [decode]

theorem decode_seReg (x y : Reg) (n : Nibble) : decode (formatXY 0x5#4 x y n) = .ok (.seReg x y) := by simp [decode]

theorem decode_sneReg (x y : Reg) (n : Nibble) : decode (formatXY 0x9#4 x y n) = .ok (.sneReg x y) := by simp [decode]

end Sys2Proof

namespace Sys2Proof.Machine

/-! ### Frames -/

theorem Keeps.trans {p : Part} {s t u : State} (h₁ : Keeps p s t) (h₂ : Keeps p t u) : Keeps p s u := by
  cases p with
  | mem | v => exact fun a => (h₂ a).trans (h₁ a)
  | calls => exact ⟨h₂.1.trans h₁.1, h₂.2.trans h₁.2⟩
  | i | pc | stack | dt | st | awaiting | fault => exact Eq.trans h₂ h₁

/-- Two updates one after the other change at most what each of them changes. -/
theorem OnlyChanges.trans {ps qs : List Part} {s t u : State} (h₁ : OnlyChanges ps s t) (h₂ : OnlyChanges qs t u) :
    OnlyChanges (ps ++ qs) s u := by
  refine ⟨fun p hp => ?_, h₂.2.trans h₁.2⟩
  rw [List.mem_append, not_or] at hp
  exact (h₁.1 p hp.1).trans (h₂.1 p hp.2)

theorem onlyChanges_setPc (s : State) (w : Word) : OnlyChanges [.pc] s (s.setPc w) := by
  refine ⟨fun p hp => ?_, rfl⟩
  cases p with
  | pc => simp at hp
  | mem | v => exact fun _ => rfl
  | calls => exact ⟨rfl, rfl⟩
  | i | stack | dt | st | awaiting | fault => rfl

theorem onlyChanges_setStack (s : State) (l : List Word) : OnlyChanges [.stack] s (s.setStack l) := by
  refine ⟨fun p hp => ?_, rfl⟩
  cases p with
  | stack => simp at hp
  | mem | v => exact fun _ => rfl
  | calls => exact ⟨rfl, rfl⟩
  | i | pc | dt | st | awaiting | fault => rfl

/-! ### Writes of `pc` (40_cycle.md R67, 41_control_flow.md R78, R81) -/

/-- A write of `pc` supersedes the fetch advance. -/
@[simp] theorem State.setPc_advance (s : State) (w : Word) : s.advance.setPc w = s.setPc w := rfl

/-- A skip goes by 4 in all where its condition holds and by 2 where it does not. -/
theorem State.skipIf_advance (s : State) (c : Bool) :
    s.advance.skipIf c = s.setPc (if c then s.pc + 4#16 else s.pc + 2#16) := by
  cases c with
  | false => rfl
  | true => simp [State.skipIf, BitVec.add_assoc]

/-- The target of a jump through `V[0]` is the exact sum, at most 0x0FFF + 0xFF. -/
theorem toNat_addrOperand_add_wideByte (nnn : Addr12) (b : Byte) :
    (addrOperand nnn + wideByte b).toNat = nnn.toNat + b.toNat := by
  have := nnn.isLt
  have := b.isLt
  rw [BitVec.toNat_add, toNat_addrOperand, toNat_wideByte]
  omega

/-- All that a skip does: `pc` is written, nothing else is, and the next fetch is checked. -/
theorem next_of_skipIf {o : Host.Outcome State Fault Refusal} {s : State} {c : Bool} {target : Word}
    (ho : o = .next (s.advance.skipIf c)) (ht : (if c then s.pc + 4#16 else s.pc + 2#16) = target) :
    ∃ t, o = .next t ∧ t.pc = target ∧ OnlyChanges [.pc] s t ∧ NextFetchChecked t := by
  rw [State.skipIf_advance] at ho
  exact ⟨_, ho, ht, onlyChanges_setPc s _, nextFetchChecked _⟩

/-! ### Calls, returns and `SYS` (41_control_flow.md R79, R80, R85) -/

theorem execCall_of_lt (nnn : Addr12) {s : State} (h : s.stack.length < 16) :
    execCall nnn s = .next ((s.setStack (s.stack ++ [s.pc + 2#16])).setPc (addrOperand nnn)) := by
  rw [execCall, State.push_advance _ _ h]
  rfl

theorem raises_execCall_of_full (nnn : Addr12) {s : State} (h : 16 ≤ s.stack.length) :
    Raises (execCall nnn s) s (.stackOverflow s.pc) := by
  rw [execCall, State.push_of_full s.advance _ h]
  rfl

theorem execRet_of_append {s : State} {rest : List Word} {w : Word} (h : s.stack = rest ++ [w]) :
    execRet s = .next ((s.setStack rest).setPc w) := by
  rw [execRet, State.pop_of_append s h]

theorem raises_execRet_of_nil {s : State} (h : s.stack = []) : Raises (execRet s) s (.stackUnderflow s.pc) := by
  rw [execRet, State.pop_of_nil s h]
  rfl

/-- A write of the stack and then of `pc` is the frame of a call and of a return. -/
theorem onlyChanges_setStack_setPc (s : State) (l : List Word) (w : Word) :
    OnlyChanges [.stack, .pc] s ((s.setStack l).setPc w) :=
  (onlyChanges_setStack s l).trans (onlyChanges_setPc _ w)

/-- The word a `SYS` error records is the word of format A with family 0 (log 18). -/
theorem addrOperand_eq_formatA (nnn : Addr12) : addrOperand nnn = formatA 0x0#4 nnn := by
  apply BitVec.eq_of_toNat_eq
  have h : (formatA 0x0#4 nnn).toNat = (0x0#4).toNat <<< 12 ||| nnn.toNat := BitVec.toNat_append 0x0#4 nnn
  simp [h]

theorem raises_execSys (nnn : Addr12) (s : State) :
    Raises (execSys nnn s) s (.unsupportedNativeCall (formatA 0x0#4 nnn) s.pc) := by
  rw [← addrOperand_eq_formatA]
  rfl

/-! ### The obligations -/

/-- Settles O13: the jump's only write is that of `pc`. -/
theorem jumpSetsPc : Obligations.JumpSetsPc := fun nnn s =>
  ⟨decode_jp nnn, s.setPc (addrOperand nnn), rfl, toNat_addrOperand nnn, onlyChanges_setPc s _, nextFetchChecked _⟩

/-- Settles O14: the sum of a 12-bit address and a byte stays below 2^16. -/
theorem jumpPlusV0AddsV0 : Obligations.JumpPlusV0AddsV0 := by
  intro nnn s
  have hsum := toNat_addrOperand_add_wideByte nnn (s.getV 0)
  have hbound : nnn.toNat + (s.getV 0).toNat ≤ 0x10FE := by
    have := nnn.isLt
    have := (s.getV 0).isLt
    omega
  exact ⟨decode_jpV0 nnn, s.setPc (addrOperand nnn + wideByte (s.getV 0)), rfl, hsum, hsum.trans_le hbound,
    onlyChanges_setPc s _, nextFetchChecked _⟩

/-- Settles O15: the push succeeds below depth 16, and at depth 16 the call raises. -/
theorem callPushesReturnAddress : Obligations.CallPushesReturnAddress := by
  refine fun nnn s => ⟨decode_call nnn, fun hlt => ?_, fun hfull => ?_⟩
  · exact ⟨_, execCall_of_lt nnn hlt, rfl, toNat_addrOperand nnn, onlyChanges_setStack_setPc s _ _⟩
  · exact raises_execCall_of_full nnn hfull.ge

/-- Settles O16: the pop succeeds where the stack has a last entry, which the invariant bounds, and on an empty stack the return
raises. -/
theorem returnPopsPc : Obligations.ReturnPopsPc := by
  refine ⟨by decide, fun s => ⟨fun rest w hstack => ?_, raises_execRet_of_nil⟩⟩
  have hbound : Inv s → w.toNat ≤ 0x1000 := fun hinv => hinv.returns w (by simp [hstack])
  exact ⟨_, execRet_of_append hstack, rfl, rfl, onlyChanges_setStack_setPc s _ _, nextFetchChecked _, hbound⟩

/-- Settles O18: each skip is `State.skipIf` after the advance, on its own condition. -/
theorem skipOnImmediate : Obligations.SkipOnImmediate := fun x kk _ =>
  ⟨decode_seImm x kk, decode_sneImm x kk, next_of_skipIf rfl (by simp), next_of_skipIf rfl (by simp)⟩

/-- Settles O19: as the skips on an immediate, with the second register's value; the low nibble is no operand. -/
theorem skipOnRegisters : Obligations.SkipOnRegisters := fun x y n _ =>
  ⟨decode_seReg x y n, decode_sneReg x y n, next_of_skipIf rfl (by simp), next_of_skipIf rfl (by simp)⟩

/-- Settles O20: the word is no literal of family 0, and its meaning is the error. -/
theorem sysRaisesUnsupported : Obligations.SysRaisesUnsupported := fun nnn s hcls hret =>
  ⟨decode_sys hcls hret, raises_execSys nnn s⟩

end Sys2Proof.Machine
end

section
/-! SUPPORT. The proofs of the family 42_data_ops.md. First the laws they need: the words of the data operations decoded; frames of
a register, an index and a call; what the flagged register write leaves in each register, one lemma per case; the flags and the
results as numbers. Then the obligations. -/

namespace Sys2Proof

/-! ### Words of the data operations (30_encoding.md R54, R56, R57) -/

theorem decode_ldImm (x : Reg) (kk : Byte) : decode (formatXK 0x6#4 x kk) = .ok (.ldImm x kk) := by simp [decode]

theorem decode_addImm (x : Reg) (kk : Byte) : decode (formatXK 0x7#4 x kk) = .ok (.addImm x kk) := by simp [decode]

theorem decode_ldI (nnn : Addr12) : decode (formatA 0xA#4 nnn) = .ok (.ldI nnn) := by simp [decode]

theorem decode_rnd (x : Reg) (kk : Byte) : decode (formatXK 0xC#4 x kk) = .ok (.rnd x kk) := by simp [decode]

theorem decode_addI (x : Reg) : decode (formatXK 0xF#4 x 0x1E#8) = .ok (.addI x) := by simp [decode, decodeF]

/-- Family 8 is left to its low nibble. -/
theorem decode_formatXY_eight (x y : Reg) (n : Nibble) :
    decode (formatXY 0x8#4 x y n) = decode8 (formatXY 0x8#4 x y n) := by simp [decode]

theorem decode_ldReg (x y : Reg) : decode (formatXY 0x8#4 x y 0x0#4) = .ok (.ldReg x y) := by
  simp [decode_formatXY_eight, decode8]

theorem decode_orReg (x y : Reg) : decode (formatXY 0x8#4 x y 0x1#4) = .ok (.orReg x y) := by
  simp [decode_formatXY_eight, decode8]

theorem decode_andReg (x y : Reg) : decode (formatXY 0x8#4 x y 0x2#4) = .ok (.andReg x y) := by
  simp [decode_formatXY_eight, decode8]

theorem decode_xorReg (x y : Reg) : decode (formatXY 0x8#4 x y 0x3#4) = .ok (.xorReg x y) := by
  simp [decode_formatXY_eight, decode8]

theorem decode_addReg (x y : Reg) : decode (formatXY 0x8#4 x y 0x4#4) = .ok (.addReg x y) := by
  simp [decode_formatXY_eight, decode8]

theorem decode_subReg (x y : Reg) : decode (formatXY 0x8#4 x y 0x5#4) = .ok (.subReg x y) := by
  simp [decode_formatXY_eight, decode8]

theorem decode_shr (x y : Reg) : decode (formatXY 0x8#4 x y 0x6#4) = .ok (.shr x y) := by
  simp [decode_formatXY_eight, decode8]

theorem decode_shl (x y : Reg) : decode (formatXY 0x8#4 x y 0xE#4) = .ok (.shl x y) := by
  simp [decode_formatXY_eight, decode8]

end Sys2Proof

namespace Sys2Proof.Machine

/-! ### Frames -/

theorem Keeps.refl (p : Part) (s : State) : Keeps p s s := by
  cases p with
  | mem | v => exact fun _ => rfl
  | calls => exact ⟨rfl, rfl⟩
  | i | pc | stack | dt | st | awaiting | fault => rfl

/-- A frame may list more parts than were changed, and in any order. -/
theorem OnlyChanges.mono {ps qs : List Part} {s t : State} (h : OnlyChanges ps s t) (hsub : ps ⊆ qs) : OnlyChanges qs s t :=
  ⟨fun p hp => h.1 p fun hmem => hp (hsub hmem), h.2⟩

theorem onlyChanges_setV (s : State) (x : Reg) (b : Byte) : OnlyChanges [.v] s (s.setV x b) := by
  refine ⟨fun p hp => ?_, rfl⟩
  cases p with
  | v => simp at hp
  | mem => exact fun _ => rfl
  | calls => exact ⟨rfl, rfl⟩
  | i | pc | stack | dt | st | awaiting | fault => rfl

theorem onlyChanges_setFlag (s : State) (f : Option Byte) : OnlyChanges [.v] s (s.setFlag f) := by
  cases f with
  | none => exact ⟨fun p _ => Keeps.refl p s, rfl⟩
  | some b => exact onlyChanges_setV s flagReg b

theorem onlyChanges_setI (s : State) (w : Word) : OnlyChanges [.i] s (s.setI w) := by
  refine ⟨fun p hp => ?_, rfl⟩
  cases p with
  | i => simp at hp
  | mem | v => exact fun _ => rfl
  | calls => exact ⟨rfl, rfl⟩
  | pc | stack | dt | st | awaiting | fault => rfl

theorem onlyChanges_ask (s : State) (c : Call) : OnlyChanges [.calls] s (s.ask c) := by
  refine ⟨fun p hp => ?_, rfl⟩
  cases p with
  | calls => simp at hp
  | mem | v => exact fun _ => rfl
  | i | pc | stack | dt | st | awaiting | fault => rfl

/-- The frame of an instruction that writes `I`. -/
theorem onlyChanges_advance_setI (s : State) (w : Word) : OnlyChanges [.i, .pc] s (s.advance.setI w) :=
  (onlyChanges_setI s w).trans (onlyChanges_setPc _ (s.pc + 2#16))

/-! ### The flagged register write, case by case (40_cycle.md R71) -/

section FlaggedWrite

variable {s : State} {x r : Reg} {b v : Byte} {f : Option Byte}

theorem onlyChanges_result_flag (s : State) (x : Reg) (b : Byte) (f : Option Byte) :
    OnlyChanges [.v, .pc] s ((s.advance.setV x b).setFlag f) :=
  have h := (onlyChanges_setPc s (s.pc + 2#16)).trans ((onlyChanges_setV _ x b).trans (onlyChanges_setFlag _ f))
  h.mono (by simp)

/-- A register that is neither the destination nor VF is kept. -/
theorem getV_result_flag_other (hx : r ≠ x) (hf : r ≠ 15) : ((s.advance.setV x b).setFlag f).getV r = s.getV r := by
  simp [getV_result_flag, flagReg, hx, hf]

/-- A flag that is written is VF's last value, whatever the destination. -/
theorem getV_flag_of_some (hf : f = some v) : ((s.advance.setV x b).setFlag f).getV 15 = v := by
  simp [flagReg, hf]

/-- A flag that is not written leaves VF, unless VF is the destination. -/
theorem getV_flag_of_none (hf : f = none) (hx : x ≠ 15) : ((s.advance.setV x b).setFlag f).getV 15 = s.getV 15 := by
  simp [hf, hx.symm]

/-- The destination holds the result, unless it is VF and the flag is written over it. -/
theorem getV_result (h : x ≠ 15 ∨ f = none) : ((s.advance.setV x b).setFlag f).getV x = b := by
  rcases h with hx | rfl
  · simp [getV_result_flag, flagReg, hx]
  · simp

/-- Without a flag, VF is a register like any other. -/
theorem writesV_unflagged (x : Reg) (b : Byte) (s : State) : WritesV x b s ((s.advance.setV x b).setFlag none) :=
  ⟨getV_result (.inr rfl), fun r hr => by simp [hr], rfl, onlyChanges_result_flag s x b none⟩

end FlaggedWrite

theorem WritesV.getV_self {x : Reg} {b : Byte} {s t : State} (h : WritesV x b s t) : t.getV x = b := h.1

theorem WritesV.getV_other {x r : Reg} {b : Byte} {s t : State} (h : WritesV x b s t) (hr : r ≠ x) : t.getV r = s.getV r :=
  h.2.1 r hr

/-- The value written may be named by what the register then holds. -/
theorem WritesV.of_getV {x : Reg} {b : Byte} {s t : State} (h : WritesV x b s t) : WritesV x (t.getV x) s t := ⟨rfl, h.2⟩

/-! ### The flags and the results as numbers (42_data_ops.md R93 to R98) -/

theorem carryFlag_of_carry {vx vy : Byte} (h : 255 < vx.toNat + vy.toNat) : carryFlag vx vy = some 1#8 := if_pos h

theorem carryFlag_of_no_carry {vx vy : Byte} (h : vx.toNat + vy.toNat ≤ 255) : carryFlag vx vy = none := if_neg h.not_gt

theorem borrowFlag_of_borrow {a b : Byte} (h : a.toNat < b.toNat) : borrowFlag a b = some 1#8 := if_pos h

theorem borrowFlag_of_no_borrow {a b : Byte} (h : b.toNat ≤ a.toNat) : borrowFlag a b = none := if_neg h.not_gt

theorem lowBitFlag_eq (vy : Byte) : lowBitFlag vy = some (vy &&& 1#8) := rfl

theorem highBitFlag_eq (vy : Byte) : highBitFlag vy = some (vy >>> 7) := rfl

theorem toNat_sub_byte (a b : Byte) : (a - b).toNat = (a.toNat + 256 - b.toNat) % 256 := by
  have := b.isLt
  rw [BitVec.toNat_sub]
  omega

theorem toNat_lowBit (b : Byte) : (b &&& 1#8).toNat = b.toNat % 2 := by simp

theorem toNat_highBit (b : Byte) : (b >>> 7).toNat = b.toNat / 128 := by simp [Nat.shiftRight_eq_div_pow]

theorem toNat_shiftRight_one (b : Byte) : (b >>> 1).toNat = b.toNat / 2 := by simp [Nat.shiftRight_eq_div_pow]

theorem toNat_shiftLeft_one (b : Byte) : (b <<< 1).toNat = 2 * b.toNat % 256 := by
  simp [Nat.shiftLeft_eq, Nat.mul_comm]

/-- Adding `256 - kk` takes `kk` back off, mod 256. -/
theorem add_add_complement (a kk : Byte) : a + kk + BitVec.ofNat 8 (256 - kk.toNat) = a := by
  have hneg : BitVec.ofNat 8 (256 - kk.toNat) = -kk := rfl
  rw [hneg, BitVec.add_assoc, BitVec.add_right_neg, BitVec.add_zero]

/-- Two writes of one register, of which the second puts the old value back, give every register back. -/
theorem WritesV.restore {x : Reg} {b c : Byte} {s t u : State} (h₁ : WritesV x b s t) (h₂ : WritesV x c t u)
    (hc : c = s.getV x) (r : Reg) : u.getV r = s.getV r := by
  by_cases hr : r = x
  · rw [hr, h₂.getV_self, hc]
  · rw [h₂.getV_other hr, h₁.getV_other hr]

/-! ### The obligations -/

/-- Settles O22: the sum is the only write, and the second sum puts `V[x]` back. -/
theorem addImmediateWrapsWithoutFlag : Obligations.AddImmediateWrapsWithoutFlag := by
  intro x kk s
  have h₁ := writesV_unflagged x (s.getV x + kk) s
  refine ⟨decode_addImm x kk, _, rfl, h₁.of_getV, ?_, _, rfl, h₁.restore (writesV_unflagged x _ _) ?_⟩
  · rw [h₁.getV_self, BitVec.toNat_add]
  · rw [h₁.getV_self, add_add_complement]

/-- Settles O24: the three results are bitwise, and no flag is written. -/
theorem bitwiseOpsHaveNoFlag : Obligations.BitwiseOpsHaveNoFlag := by
  intro x y s
  have hor := writesV_unflagged x (s.getV x ||| s.getV y) s
  have hand := writesV_unflagged x (s.getV x &&& s.getV y) s
  have hxor := writesV_unflagged x (s.getV x ^^^ s.getV y) s
  refine ⟨decode_orReg x y, decode_andReg x y, decode_xorReg x y, ⟨_, rfl, hor.of_getV, fun k _ => ?_⟩,
    ⟨_, rfl, hand.of_getV, fun k _ => ?_⟩, ⟨_, rfl, hxor.of_getV, fun k _ => ?_⟩⟩
  · rw [hor.getV_self, BitVec.getLsbD_or]
  · rw [hand.getV_self, BitVec.getLsbD_and]
  · rw [hxor.getV_self, BitVec.getLsbD_xor]

/-- Settles O25: VF by whether the sum carries; a carry's flag is written over the sum where `x` is 15. -/
theorem addWithCarrySetsOrLeavesFlag : Obligations.AddWithCarrySetsOrLeavesFlag := by
  intro x y s
  refine ⟨decode_addReg x y, _, rfl, State.setFlag_pc _ _, onlyChanges_result_flag s x _ _,
    fun r => getV_result_flag_other, fun hcarry => ?_, fun hno hx => ?_, fun h => ?_⟩
  · exact getV_flag_of_some (carryFlag_of_carry hcarry)
  · exact getV_flag_of_none (carryFlag_of_no_carry hno) hx
  · rw [getV_result (h.imp_right carryFlag_of_no_carry), BitVec.toNat_add]

/-- Settles O26: VF by whether the difference borrows; a borrow's flag is written over the difference where `x` is 15. -/
theorem subWithBorrowSetsOrLeavesFlag : Obligations.SubWithBorrowSetsOrLeavesFlag := by
  intro x y s
  refine ⟨decode_subReg x y, _, rfl, State.setFlag_pc _ _, onlyChanges_result_flag s x _ _,
    fun r => getV_result_flag_other, fun hborrow => ?_, fun hno hx => ?_, fun h => ?_⟩
  · exact getV_flag_of_some (borrowFlag_of_borrow hborrow)
  · exact getV_flag_of_none (borrowFlag_of_no_borrow hno) hx
  · rw [getV_result (h.imp_right borrowFlag_of_no_borrow), toNat_sub_byte]

/-- Settles O27: the flag is always written, after the shifted value. -/
theorem shiftRightCapturesLowBit : Obligations.ShiftRightCapturesLowBit := by
  intro x y s
  refine ⟨decode_shr x y, _, rfl, State.setFlag_pc _ _, onlyChanges_result_flag s x _ _,
    fun r => getV_result_flag_other, ?_, fun hx => ?_⟩
  · rw [getV_flag_of_some (lowBitFlag_eq _), toNat_lowBit]
  · rw [getV_result (.inl hx), toNat_shiftRight_one]

/-- Settles O29: as for the right shift, with the bit shifted out at the top. -/
theorem shiftLeftCapturesHighBit : Obligations.ShiftLeftCapturesHighBit := by
  intro x y s
  refine ⟨decode_shl x y, _, rfl, State.setFlag_pc _ _, onlyChanges_result_flag s x _ _,
    fun r => getV_result_flag_other, ?_, fun hx => ?_⟩
  · rw [getV_flag_of_some (highBitFlag_eq _), toNat_highBit]
  · rw [getV_result (.inl hx), toNat_shiftLeft_one]

/-- Settles O21: a register write without a flag. -/
theorem setImmediateWritesVx : Obligations.SetImmediateWritesVx := fun x kk s =>
  ⟨decode_ldImm x kk, _, rfl, writesV_unflagged x kk s⟩

/-- Settles O23: a register write without a flag. -/
theorem copyRegisterWritesVx : Obligations.CopyRegisterWritesVx := fun x y s =>
  ⟨decode_ldReg x y, _, rfl, writesV_unflagged x (s.getV y) s⟩

/-- Settles O30: the sum is taken at 16 bits, and `I` is the only other write. -/
theorem addToIndexIsRawSixteenBit : Obligations.AddToIndexIsRawSixteenBit := by
  intro x s
  have hsum : (s.i + wideByte (s.getV x)).toNat = (s.i.toNat + (s.getV x).toNat) % 65536 := by
    rw [BitVec.toNat_add, toNat_wideByte]
  exact ⟨decode_addI x, _, rfl, hsum, rfl, onlyChanges_advance_setI s _⟩

/-- Settles O31: the address operand is at most 0x0FFF. -/
theorem setIndexWritesTwelveBits : Obligations.SetIndexWritesTwelveBits := by
  intro nnn s
  have haddr := toNat_addrOperand nnn
  exact ⟨decode_ldI nnn, _, rfl, haddr, haddr.trans_le (Nat.le_of_lt_succ nnn.isLt), rfl, onlyChanges_advance_setI s _⟩

/-- Settles O32: the call is recorded, then the masked answer is written without a flag. -/
theorem randomIsMasked : Obligations.RandomIsMasked := by
  intro x kk s
  have hw := writesV_unflagged x (s.randomAnswer &&& kk) (s.ask .randomByte)
  have hframe := (onlyChanges_ask s .randomByte).trans (onlyChanges_result_flag _ x (s.randomAnswer &&& kk) none)
  refine ⟨decode_rnd x kk, _, rfl, hw.getV_self, fun hkk => ?_, fun hkk => ?_, fun r hr => hw.getV_other hr, rfl, rfl,
    hframe.mono (by simp)⟩
  · rw [hw.getV_self, hkk, BitVec.and_zero]
  · rw [hw.getV_self, hkk]
    exact BitVec.and_allOnes

end Sys2Proof.Machine
end

section
/-! SUPPORT. The proofs of the family 43_io_adjacent.md. First the laws they need: the words of the family decoded; frames of a timer,
of memory and of a block load; a guarded access out of range; a block read and a block written, byte by byte; a question that a
skip follows. Then the obligations. -/

namespace Sys2Proof

/-! ### Words of the I/O-adjacent instructions (30_encoding.md R55, R56, R57) -/

theorem decode_drw (x y : Reg) (n : Nibble) : decode (formatXY 0xD#4 x y n) = .ok (.drw x y n) := by simp [decode]

theorem decode_skp (x : Reg) : decode (formatXK 0xE#4 x 0x9E#8) = .ok (.skp x) := by simp [decode, decodeE]

theorem decode_sknp (x : Reg) : decode (formatXK 0xE#4 x 0xA1#8) = .ok (.sknp x) := by simp [decode, decodeE]

/-- Family 0xF is left to its low byte. -/
theorem decode_formatXK_fifteen (x : Reg) (kk : Byte) :
    decode (formatXK 0xF#4 x kk) = decodeF (formatXK 0xF#4 x kk) := by simp [decode]

theorem decode_ldVxDt (x : Reg) : decode (formatXK 0xF#4 x 0x07#8) = .ok (.ldVxDt x) := by
  simp [decode_formatXK_fifteen, decodeF]

theorem decode_ldDtVx (x : Reg) : decode (formatXK 0xF#4 x 0x15#8) = .ok (.ldDtVx x) := by
  simp [decode_formatXK_fifteen, decodeF]

theorem decode_ldStVx (x : Reg) : decode (formatXK 0xF#4 x 0x18#8) = .ok (.ldStVx x) := by
  simp [decode_formatXK_fifteen, decodeF]

theorem decode_ldF (x : Reg) : decode (formatXK 0xF#4 x 0x29#8) = .ok (.ldF x) := by
  simp [decode_formatXK_fifteen, decodeF]

theorem decode_ldB (x : Reg) : decode (formatXK 0xF#4 x 0x33#8) = .ok (.ldB x) := by
  simp [decode_formatXK_fifteen, decodeF]

theorem decode_dump (x : Reg) : decode (formatXK 0xF#4 x 0x55#8) = .ok (.dump x) := by
  simp [decode_formatXK_fifteen, decodeF]

theorem decode_load (x : Reg) : decode (formatXK 0xF#4 x 0x65#8) = .ok (.load x) := by
  simp [decode_formatXK_fifteen, decodeF]

end Sys2Proof

namespace Sys2Proof.Machine

/-! ### Frames -/

theorem onlyChanges_setDt (s : State) (b : Byte) : OnlyChanges [.dt] s (s.setDt b) := by
  refine ⟨fun p hp => ?_, rfl⟩
  cases p with
  | dt => simp at hp
  | mem | v => exact fun _ => rfl
  | calls => exact ⟨rfl, rfl⟩
  | i | pc | stack | st | awaiting | fault => rfl

theorem onlyChanges_setSt (s : State) (b : Byte) : OnlyChanges [.st] s (s.setSt b) := by
  refine ⟨fun p hp => ?_, rfl⟩
  cases p with
  | st => simp at hp
  | mem | v => exact fun _ => rfl
  | calls => exact ⟨rfl, rfl⟩
  | i | pc | stack | dt | awaiting | fault => rfl

theorem onlyChanges_setMem (s : State) (m : Memory) : OnlyChanges [.mem] s (s.setMem m) := by
  refine ⟨fun p hp => ?_, rfl⟩
  cases p with
  | mem => simp at hp
  | v => exact fun _ => rfl
  | calls => exact ⟨rfl, rfl⟩
  | i | pc | stack | dt | st | awaiting | fault => rfl

/-- Through the field lemmas of `State.loadV`: by `rfl` alone, Lean would run the register file's fill. -/
theorem onlyChanges_loadV (s : State) (bytes : List Byte) : OnlyChanges [.v] s (s.loadV bytes) := by
  refine ⟨fun p hp => ?_, State.loadV_params s bytes⟩
  cases p with
  | v => simp at hp
  | mem | calls | i | pc | stack | dt | st | awaiting | fault => simp [Keeps]

/-- What is changed after the fetch advance is changed by the instruction, and so is `pc`. -/
theorem OnlyChanges.of_advance {p : Part} {s t : State} (h : OnlyChanges [p] s.advance t) : OnlyChanges [p, .pc] s t :=
  ((onlyChanges_setPc s (s.pc + 2#16)).trans h).mono (by simp)

/-! ### Accesses through `I` (20_memory.md R36, R40) -/

/-- A guarded access whose range leaves Memory raises, whatever it would have done. -/
theorem raises_guardRange {base len : Nat} (s t : State) (h0 : len ≠ 0) (h : 0x1000 < base + len) :
    Raises (guardRange base len s t) s (.outOfBoundsAccess s.pc (max base 0x1000)) := guardRange_out s t h0 h

/-- Byte `j` of a block read, or the default past its end. -/
theorem Memory.getD_getRange (m : Memory) (base n j : Nat) (d : Byte) :
    (Memory.getRange m base n).getD j d = if j < n then Memory.get m (base + j) else d := by
  rw [List.getD_eq_getElem?_getD, Memory.getElem?_getRange]
  split <;> rfl

section BlockWrite

variable {m : Memory} (hm : m.Pairwise (fun a b => a.1 < b.1)) (base : Nat) (bs : List Byte)
include hm

theorem Memory.get_setRange_inside {j : Nat} (hj : j < bs.length) :
    Memory.get (Memory.setRange m base bs) (base + j) = bs.getD j 0#8 := by
  rw [Memory.get_setRange hm, if_pos (by omega), Nat.add_sub_cancel_left]

theorem Memory.get_setRange_outside {a : Nat} (ha : ¬(base ≤ a ∧ a < base + bs.length)) :
    Memory.get (Memory.setRange m base bs) a = Memory.get m a := by
  rw [Memory.get_setRange hm, if_neg ha]

end BlockWrite

/-- The three digits as numbers: each is below 256, so its byte holds it exactly. -/
theorem toNat_getD_decimalDigits (b : Byte) :
    ((decimalDigits b).getD 0 0#8).toNat = b.toNat / 100 ∧ ((decimalDigits b).getD 1 0#8).toNat = b.toNat / 10 % 10 ∧
      ((decimalDigits b).getD 2 0#8).toNat = b.toNat % 10 := by
  have hbyte := b.isLt
  refine ⟨Nat.mod_eq_of_lt ?_, Nat.mod_eq_of_lt ?_, Nat.mod_eq_of_lt ?_⟩ <;> omega

/-! ### Questions to the collaborators (60_exceptions.md R130) -/

/-- The state after a draw request and its flag: VF alone of the registers is written. -/
theorem onlyChanges_ask_flag (s : State) (c : Call) (f : Option Byte) :
    OnlyChanges [.v, .pc, .calls] s ((s.advance.ask c).setFlag f) :=
  have h := (onlyChanges_setPc s (s.pc + 2#16)).trans ((onlyChanges_ask _ c).trans (onlyChanges_setFlag _ f))
  h.mono (by simp)

/-- All that a skip on an answer does: the question is recorded, `pc` is written, and the next fetch is checked. -/
theorem next_of_ask_skipIf {o : Host.Outcome State Fault Refusal} {s : State} {c : Call} {b : Bool} {target : Word}
    (ho : o = .next ((s.advance.ask c).skipIf b)) (ht : (if b then s.pc + 4#16 else s.pc + 2#16) = target) :
    ∃ t, o = .next t ∧ t.pc = target ∧ t.calls = s.calls ++ [c] ∧ OnlyChanges [.pc, .calls] s t ∧ NextFetchChecked t := by
  obtain ⟨t, hnext, hpc, hframe, hfetch⟩ := next_of_skipIf (s := s.ask c) ho ht
  have hcalls : Keeps .calls (s.ask c) t := hframe.1 .calls (by simp)
  exact ⟨t, hnext, hpc, hcalls.1, ((onlyChanges_ask s c).trans hframe).mono (by simp), hfetch⟩

/-! ### The obligations -/

/-- Settles O34: the guard raises before the request; else the bytes are the block at `I`, and the flag is always written. -/
theorem drawSpriteRequestsAndSetsFlag : Obligations.DrawSpriteRequestsAndSetsFlag := by
  refine fun x y n s => ⟨decode_drw x y n, fun h0 hout => ?_, fun hin => ?_⟩
  · exact raises_guardRange s _ (fun h => h0 (BitVec.eq_of_toNat_eq h)) hout
  · have hrange : countOperand n = 0 ∨ s.blockBase + countOperand n ≤ 4096 := hin.imp_left (congrArg BitVec.toNat)
    refine ⟨_, s.spriteBytes n, guardRange_in s _ hrange, Memory.length_getRange _ _ _, fun j hj => ?_,
      State.setFlag_calls _ _, State.getV_setFlag_some _ _ _, fun r hr => ?_, State.setFlag_pc _ _, onlyChanges_ask_flag s _ _⟩
    · exact (Memory.getElem?_getRange _ _ _ j).trans (if_pos hj)
    · exact (State.getV_setFlag_some _ _ r).trans (if_neg hr)

/-- Settles O35: each skip asks the same question, and skips on its own reading of the answer. -/
theorem skipOnKeyAsksOnce : Obligations.SkipOnKeyAsksOnce := by
  refine fun x s => ⟨decode_skp x, decode_sknp x, next_of_ask_skipIf rfl rfl, next_of_ask_skipIf rfl ?_⟩
  cases s.keyAnswer (s.getV x) <;> rfl

/-- Settles O38: the font base leaves room for the glyphs below 0x200, and the sum stays below 2^16. -/
theorem loadSpriteAddressUsesWholeByte : Obligations.LoadSpriteAddressUsesWholeByte := by
  intro x s
  have hfont : s.params.fontBase.val + 80 ≤ 0x200 := by omega
  exact ⟨decode_ldF x, hfont, _, rfl, toNat_glyphAddress _ _, rfl, onlyChanges_advance_setI s _⟩

/-- Settles O39: the block written is the three digits, each below 256. -/
theorem storeBcdWritesThreeDigits : Obligations.StoreBcdWritesThreeDigits := by
  intro x s hinv
  refine ⟨decode_ldB x, fun hout => ?_, fun hin => ?_⟩
  · exact raises_guardRange s _ (by decide) (Nat.lt_succ_of_le hout)
  have written {j : Nat} (hj : j < 3) := Memory.get_setRange_inside hinv.memory.1 s.i.toNat (decimalDigits (s.getV x)) hj
  obtain ⟨hundreds, tens, ones⟩ := toNat_getD_decimalDigits (s.getV x)
  refine ⟨_, guardRange_in s _ (.inr hin), ?_, ?_, ?_, fun a ha => ?_, rfl, (onlyChanges_setMem _ _).of_advance⟩
  · exact (congrArg BitVec.toNat (written (j := 0) (by decide))).trans hundreds
  · exact (congrArg BitVec.toNat (written (j := 1) (by decide))).trans tens
  · exact (congrArg BitVec.toNat (written (j := 2) (by decide))).trans ones
  · exact Memory.get_setRange_outside hinv.memory.1 _ (decimalDigits (s.getV x)) ha

/-- Settles O40: the block written is the registers' bytes. -/
theorem dumpStoresRegisters : Obligations.DumpStoresRegisters := by
  intro x s hinv
  refine ⟨decode_dump x, fun hout => ?_, fun hin => ?_⟩
  · exact raises_guardRange s _ (Nat.succ_ne_zero _) (Nat.lt_succ_of_le hout)
  have hlen := length_blockBytes s x
  refine ⟨_, guardRange_in s _ (.inr hin), fun r hr => ?_, fun a ha => ?_, rfl, (onlyChanges_setMem _ _).of_advance⟩
  · have hget := Memory.get_setRange_inside hinv.memory.1 s.i.toNat (s.blockBytes x) (j := r) (hlen ▸ Nat.lt_succ_of_le hr)
    exact hget.trans (State.getD_blockBytes s x r hr 0#8)
  · exact Memory.get_setRange_outside hinv.memory.1 _ _ (hlen.symm ▸ ha)

/-- Settles O41: the registers take the block's bytes up to its end, and their own past it. -/
theorem loadReadsRegisters : Obligations.LoadReadsRegisters := by
  intro x s
  refine ⟨decode_load x, fun hout => ?_, fun hin => ?_⟩
  · exact raises_guardRange s _ (Nat.succ_ne_zero _) (Nat.lt_succ_of_le hout)
  have loaded (r : Reg) := (State.getV_loadV s.advance (Memory.getRange s.mem s.blockBase (blockLength x)) r).trans
    (Memory.getD_getRange s.mem s.i.toNat (x.val + 1) r (s.getV r))
  refine ⟨_, guardRange_in s _ (.inr hin), fun r hr => ?_, fun r hr => ?_, rfl, (onlyChanges_loadV _ _).of_advance⟩
  · exact (loaded r).trans (if_pos (Nat.lt_succ_of_le hr))
  · exact (loaded r).trans (if_neg (Nat.not_lt_of_le hr))

/-- Settles O37: each copy is one write after the advance. -/
theorem timerCopiesMoveOneByte : Obligations.TimerCopiesMoveOneByte := fun x s =>
  ⟨decode_ldVxDt x, decode_ldDtVx x, decode_ldStVx x, ⟨_, rfl, writesV_unflagged x s.dt s⟩,
    ⟨_, rfl, rfl, rfl, (onlyChanges_setDt _ _).of_advance⟩, ⟨_, rfl, rfl, rfl, (onlyChanges_setSt _ _).of_advance⟩⟩

end Sys2Proof.Machine
end

section
/-! SUPPORT. The proofs of the family 60_exceptions.md. First the laws they need: one tick of a timer as a number; what
`isAwaitingKey` answers; the snapshot's memory, byte by byte. Then the obligations. -/

namespace Sys2Proof.Machine

/-- Subtraction of numbers stops at 0, as the timer does (60_exceptions.md R126). -/
theorem toNat_tickDown (b : Byte) : (tickDown b).toNat = b.toNat - 1 := by
  rw [tickDown]
  split
  · next hzero => simp [hzero]
  · next hpos =>
    have hne : b.toNat ≠ 0 := fun h => hpos (BitVec.eq_of_toNat_eq h)
    exact BitVec.toNat_sub_of_le (BitVec.le_def.mpr (Nat.one_le_iff_ne_zero.mpr hne))

theorem onlyChanges_tickTimers (s : State) : OnlyChanges [.dt, .st] s (tickTimers s) :=
  (onlyChanges_setDt s _).trans (onlyChanges_setSt _ _)

theorem isAwaitingKey_iff (s : State) : isAwaitingKey s = true ↔ s.awaiting ≠ none := Option.isSome_iff_ne_none

theorem length_inspectState_mem (s : State) : (inspectState s).mem.length = 4096 := Memory.length_getRange s.mem 0 _

theorem getElem?_inspectState_mem (s : State) {a : Nat} (ha : a < 4096) :
    (inspectState s).mem[a]? = some (Memory.get s.mem a) := by
  have hbyte := (Memory.getElem?_getRange s.mem 0 4096 a).trans (if_pos ha)
  rwa [Nat.zero_add] at hbyte

/-! ### The obligations -/

/-- Settles O48: each timer ticks on its own, and the two writes touch nothing else. -/
theorem tickTimersClampAtZero : Obligations.TickTimersClampAtZero := fun s =>
  ⟨tickTimers s, rfl, toNat_tickDown s.dt, toNat_tickDown s.st, onlyChanges_tickTimers s⟩

/-- Settles O50: the snapshot's memory is the block of 4096 bytes from address 0; the other components are copies. -/
theorem inspectStateShowsWholeState : Obligations.InspectStateShowsWholeState := fun s =>
  ⟨isAwaitingKey_iff s, length_inspectState_mem s, fun _ => getElem?_inspectState_mem s,
    rfl, rfl, rfl, rfl, rfl, rfl, rfl, rfl⟩

end Sys2Proof.Machine
end

section
/-! SUPPORT. The proofs of the family 70_reset_and_hazards.md. First the laws they need: what memory and the registers hold after
`reset()`; what `loadProgram` and `supplyKey` can do; the operations that keep a set latch. Then the obligations. -/

namespace Sys2Proof.Machine

/-! ### The state after `reset()` (70_reset_and_hazards.md R133) -/

/-- The list of `RESERVED_IMAGE` is cut at 0x1FF, and reads as 0 past its end (log 3). -/
theorem Memory.get_resetMemory (p : Config.Params) (a : Nat) :
    Memory.get (resetMemory p) a = if a < 0x200 then p.reservedImage.getD a 0#8 else 0#8 := by
  rw [resetMemory, Memory.get_setRange .nil, Memory.get_nil, List.length_take, progBase_eq]
  split_ifs with hblock hlow
  · simp [List.getD_eq_getElem?_getD, hlow]
  · omega
  · rw [List.getD_eq_default _ _ (by omega)]
  · rfl

theorem getV_hostReset (s : State) (r : Reg) : (hostReset s).getV r = 0#8 := by
  simp [State.getV, hostReset, State.reset]

/-! ### What `loadProgram` can do (70_reset_and_hazards.md R135) -/

theorem loadProgram_of_too_long {image : List Byte} (s : State) (h : 3584 < image.length) :
    loadProgram image s = .fault (.programTooLarge image.length) := if_pos h

theorem loadProgram_of_fits {image : List Byte} (s : State) (h : image.length ≤ 3584) :
    loadProgram image s = .next ((s.setMem (Memory.setRange s.mem 0x200 image)).setPc 0x200#16) := if_neg (Nat.not_lt.mpr h)

/-- A load that is taken writes the image and `pc`. -/
theorem loadProgram_next {image : List Byte} {s t : State} (h : loadProgram image s = .next t) :
    image.length ≤ 3584 ∧ t = (s.setMem (Memory.setRange s.mem 0x200 image)).setPc 0x200#16 := by
  rcases Nat.lt_or_ge 3584 image.length with hlong | hfits
  · cases (loadProgram_of_too_long s hlong).symm.trans h
  · cases (loadProgram_of_fits s hfits).symm.trans h
    exact ⟨hfits, rfl⟩

/-- A write of memory and then of `pc` is the frame of a load. -/
theorem onlyChanges_setMem_setPc (s : State) (m : Memory) (w : Word) : OnlyChanges [.mem, .pc] s ((s.setMem m).setPc w) :=
  (onlyChanges_setMem s m).trans (onlyChanges_setPc _ w)

/-- A call turned down with an error leaves the run at the same state. -/
theorem runOps_cons_of_fault {op : HostOp} {s : State} {r : Fault} (ops : List HostOp) (h : perform op s = .fault r) :
    runOps (op :: ops) s = runOps ops s := by
  rw [runOps, h]

/-! ### What `supplyKey` can do (60_exceptions.md R125) -/

/-- A key that is taken changes nothing where no wait is pending, and else is written and ends the wait. -/
theorem supplyKey_next {k : Nat} {s t : State} (h : supplyKey k s = .next t) :
    k < 16 ∧ ((s.awaiting = none ∧ t = s) ∨
      ∃ x, s.awaiting = some x ∧ t = (s.setV x (BitVec.ofNat 8 k)).setAwaiting none) := by
  unfold supplyKey at h
  split at h
  · cases h
  next hk =>
    refine ⟨Nat.not_le.mp hk, ?_⟩
    split at h
    · next ha =>
      cases h
      exact .inl ⟨ha, rfl⟩
    · next x ha =>
      cases h
      exact .inr ⟨x, ha, rfl⟩

/-! ### The latch between resets (60_exceptions.md R119) -/

/-- No host operation but `reset()` clears or changes a set latch: a latched cycle is held, and the others do not write it. -/
theorem perform_keeps_latch {op : HostOp} {s t : State} {e : CycleError} (hs : s.fault = some e) (hop : op ≠ .reset)
    (h : perform op s = .next t) : t.fault = some e := by
  cases op with
  | runOneCycle =>
    cases (step_of_latched hs).symm.trans h
    exact hs
  | reset => exact absurd rfl hop
  | loadProgram image =>
    obtain ⟨-, rfl⟩ := loadProgram_next h
    exact hs
  | supplyKey k =>
    obtain ⟨-, ⟨-, rfl⟩ | ⟨x, -, rfl⟩⟩ := supplyKey_next h
    · exact hs
    · exact hs
  | tickTimers =>
    cases h
    exact hs

/-! ### The obligations -/

/-- Settles O45: memory by `Memory.get_resetMemory`, the other components as in `State.reset`; and every operation but `reset()` keeps
a set latch. -/
theorem hostResetRestoresEverything : Obligations.HostResetRestoresEverything := by
  refine ⟨fun s => ⟨hostReset s, rfl, fun a ha => ?_, fun a ha => ?_, getV_hostReset s,
    rfl, rfl, rfl, rfl, rfl, rfl, rfl⟩, fun s t op hs h ht => ?_⟩
  · exact (Memory.get_resetMemory s.params a).trans (if_pos ha)
  · exact (Memory.get_resetMemory s.params a).trans (if_neg (Nat.not_lt.mpr ha))
  · obtain ⟨e, he⟩ := Option.ne_none_iff_exists'.mp hs
    by_contra hop
    cases ht.symm.trans (perform_keeps_latch he hop h)

/-- Settles O46: a load that is turned down leaves the run at the same state; one that is taken is a block write at 0x200. -/
theorem loadProgramPlacesImage : Obligations.LoadProgramPlacesImage := by
  refine fun image s hinv => ⟨fun hlong => ?_, fun hfits => ?_⟩
  · have hfault : perform (.loadProgram image) s = .fault (.programTooLarge image.length) := loadProgram_of_too_long s hlong
    exact ⟨hfault, runOps_cons_of_fault [] hfault⟩
  · refine ⟨_, loadProgram_of_fits s hfits, rfl, fun j hj => ?_, fun a ha => ?_, onlyChanges_setMem_setPc s _ _⟩
    · rw [State.setPc_mem, State.setMem_mem, Memory.get_setRange_inside hinv.memory.1 0x200 image hj,
        List.getD_eq_getElem _ _ hj, List.getElem?_eq_getElem hj]
    · exact Memory.get_setRange_outside hinv.memory.1 0x200 image ha

end Sys2Proof.Machine
end

section
/-! SUPPORT. The laws of the whole-machine rules: what the meaning of an instruction can do to the state, said once, and what follows from
it for the invariant and for the writers of each part. -/

namespace Sys2Proof.Machine

/-! ### The instructions that can write each part (10_state.md R22, R23, R27) -/

/-- The instructions that write `I`. -/
def IndexWriter (i : Instr) : Prop := (∃ nnn, i = .ldI nnn) ∨ (∃ x, i = .addI x) ∨ (∃ x, i = .ldF x)

/-- The instructions that write memory. -/
def MemoryWriter (i : Instr) : Prop := (∃ x, i = .ldB x) ∨ (∃ x, i = .dump x)

/-- The instructions that call a collaborator. -/
def Caller (i : Instr) : Prop :=
  i = .cls ∨ (∃ x kk, i = .rnd x kk) ∨ (∃ x y n, i = .drw x y n) ∨ (∃ x, i = .skp x) ∨ (∃ x, i = .sknp x)

/-- The instructions that write `V[r]` as their one destination. -/
def Destination (i : Instr) (r : Reg) : Prop :=
  (∃ kk, i = .ldImm r kk ∨ i = .addImm r kk ∨ i = .rnd r kk) ∨
  (∃ y, i = .ldReg r y ∨ i = .orReg r y ∨ i = .andReg r y ∨ i = .xorReg r y ∨ i = .addReg r y ∨ i = .subReg r y ∨
    i = .shr r y ∨ i = .subn r y ∨ i = .shl r y) ∨
  i = .ldVxDt r

/-- The instructions that write VF as a flag. -/
def FlagWriter (i : Instr) : Prop :=
  ∃ x y, i = .addReg x y ∨ i = .subReg x y ∨ i = .shr x y ∨ i = .subn x y ∨ i = .shl x y ∨ ∃ n, i = .drw x y n

/-- Where an instruction other than a return can lead from `s`: at most 4 past the fetch address, or to a jump's target, of which the
highest is 0x0FFF + 0xFF. -/
def Target (s : State) (w : Word) : Prop := w.toNat ≤ s.pc.toNat + 4 ∨ w.toNat ≤ 0x10FE

/-! ### All that the meaning of an instruction can do -/

/-- `Effect s i t`: from `s`, the meaning of `i` can end in `t`. One constructor per shape of meaning. -/
inductive Effect (s : State) : Instr → State → Prop where
  | raises {i : Instr} (e : CycleError) : Effect s i (s.setFault (some e))
  | jump {i : Instr} {w : Word} (hw : Target s w) : Effect s i (s.setPc w)
  | call (nnn : Addr12) (hdepth : s.stack.length < 16) :
      Effect s (.call nnn) ((s.setStack (s.stack ++ [s.pc + 2#16])).setPc (addrOperand nnn))
  | ret {rest : List Word} {w : Word} (hstack : s.stack = rest ++ [w]) : Effect s .ret ((s.setStack rest).setPc w)
  | result {i : Instr} {x : Reg} {b : Byte} {f : Option Byte} (hx : Destination i x) (hf : f = none ∨ FlagWriter i) :
      Effect s i ((s.advance.setV x b).setFlag f)
  | random (x : Reg) (kk b : Byte) : Effect s (.rnd x kk) ((s.ask .randomByte).advance.setV x b)
  | index {i : Instr} {w : Word} (hi : IndexWriter i) : Effect s i (s.advance.setI w)
  | request : Effect s .cls (s.advance.tell .clearScreen)
  | draw (x y : Reg) (n : Nibble) (c : Call) (f : Option Byte) : Effect s (.drw x y n) ((s.advance.ask c).setFlag f)
  | skipOnKey {i : Instr} {c : Call} {w : Word} (hi : Caller i) (hw : Target s w) : Effect s i ((s.ask c).setPc w)
  | wait (x : Reg) : Effect s (.ldVxK x) (s.advance.setAwaiting (some x))
  | delay (x : Reg) (b : Byte) : Effect s (.ldDtVx x) (s.advance.setDt b)
  | sound (x : Reg) (b : Byte) : Effect s (.ldStVx x) (s.advance.setSt b)
  | store {i : Instr} {bs : List Byte} (hi : MemoryWriter i) (hrange : s.blockBase + bs.length ≤ 0x1000) :
      Effect s i (s.advance.setMem (Memory.setRange s.mem s.blockBase bs))
  | load {x : Reg} {bs : List Byte} (hlen : bs.length = x.val + 1) : Effect s (.load x) (s.advance.loadV bs)

/-- A skip leads at most 4 past the fetch address. -/
theorem target_skip (s : State) (c : Bool) : Target s (if c then s.pc + 4#16 else s.pc + 2#16) := by
  refine .inl ?_
  cases c
  · exact (Nat.mod_le _ _).trans (Nat.add_le_add_left (by decide) _)
  · exact Nat.mod_le _ _

theorem target_addrOperand (s : State) (nnn : Addr12) : Target s (addrOperand nnn) :=
  .inr (by rw [toNat_addrOperand]; omega)

theorem target_addrOperand_add_wideByte (s : State) (nnn : Addr12) (b : Byte) :
    Target s (addrOperand nnn + wideByte b) :=
  .inr (by rw [toNat_addrOperand_add_wideByte]; omega)

theorem Effect.of_skipIf (i : Instr) (s : State) (c : Bool) : Effect s i (s.advance.skipIf c) := by
  rw [State.skipIf_advance]
  exact .jump (target_skip s c)

theorem Effect.of_ask_skipIf {i : Instr} (hi : Caller i) (s : State) (q : Call) (c : Bool) :
    Effect s i ((s.advance.ask q).skipIf c) := by
  have hskip : (s.advance.ask q).skipIf c = (s.ask q).setPc (if c then s.pc + 4#16 else s.pc + 2#16) :=
    State.skipIf_advance (s.ask q) c
  rw [hskip]
  exact .skipOnKey hi (target_skip s c)

/-- A guarded access raises, or does what it does with its range in bounds. -/
theorem exists_effect_guardRange {i : Instr} {base len : Nat} {s t : State}
    (ht : len = 0 ∨ base + len ≤ 4096 → Effect s i t) : ∃ u, guardRange base len s t = .next u ∧ Effect s i u := by
  by_cases hrange : len = 0 ∨ base + len ≤ 4096
  · exact ⟨t, guardRange_in s t hrange, ht hrange⟩
  · exact ⟨_, guardRange_out s t (by omega) (by omega), .raises _⟩

theorem exists_effect_execCall (nnn : Addr12) (s : State) : ∃ t, execCall nnn s = .next t ∧ Effect s (.call nnn) t := by
  rcases Nat.lt_or_ge s.stack.length 16 with hlt | hfull
  · exact ⟨_, execCall_of_lt nnn hlt, .call nnn hlt⟩
  · exact ⟨_, raises_execCall_of_full nnn hfull, .raises _⟩

theorem exists_effect_execRet (s : State) : ∃ t, execRet s = .next t ∧ Effect s .ret t := by
  rcases List.eq_nil_or_concat' s.stack with hnil | ⟨rest, w, hstack⟩
  · exact ⟨_, raises_execRet_of_nil hnil, .raises _⟩
  · exact ⟨_, execRet_of_append hstack, .ret hstack⟩

/-- Every instruction ends in a next state, with one of the effects. -/
theorem exists_effect (i : Instr) (s : State) : ∃ t, exec i s = .next t ∧ Effect s i t := by
  cases i with
  | cls => exact ⟨_, rfl, .request⟩
  | ret => exact exists_effect_execRet s
  | sys _ => exact ⟨_, rfl, .raises _⟩
  | jp nnn => exact ⟨_, rfl, .jump (target_addrOperand s nnn)⟩
  | call nnn => exact exists_effect_execCall nnn s
  | jpV0 nnn => exact ⟨_, rfl, .jump (target_addrOperand_add_wideByte s nnn _)⟩
  | seImm _ _ | sneImm _ _ | seReg _ _ | sneReg _ _ => exact ⟨_, rfl, .of_skipIf _ s _⟩
  | ldImm _ kk | addImm _ kk => exact ⟨_, rfl, .result (.inl ⟨kk, by simp⟩) (.inl rfl)⟩
  | ldReg _ y | orReg _ y | andReg _ y | xorReg _ y => exact ⟨_, rfl, .result (.inr (.inl ⟨y, by simp⟩)) (.inl rfl)⟩
  | addReg x y | subReg x y | shr x y | subn x y | shl x y =>
    exact ⟨_, rfl, .result (.inr (.inl ⟨y, by simp⟩)) (.inr ⟨x, y, by simp⟩)⟩
  | ldVxDt _ => exact ⟨_, rfl, .result (f := none) (.inr (.inr rfl)) (.inl rfl)⟩
  | rnd x kk => exact ⟨_, rfl, .random x kk _⟩
  | ldI _ | addI _ | ldF _ => exact ⟨_, rfl, .index (by simp [IndexWriter])⟩
  | drw x y n => exact exists_effect_guardRange fun _ => .draw x y n _ _
  | skp _ | sknp _ => exact ⟨_, rfl, .of_ask_skipIf (by simp [Caller]) s _ _⟩
  | ldVxK x => exact ⟨_, rfl, .wait x⟩
  | ldDtVx x => exact ⟨_, rfl, .delay x _⟩
  | ldStVx x => exact ⟨_, rfl, .sound x _⟩
  | ldB x => exact exists_effect_guardRange fun h => .store (.inl ⟨x, rfl⟩) (h.resolve_left (by decide))
  | dump x =>
    exact exists_effect_guardRange fun h =>
      .store (.inr ⟨x, rfl⟩) ((length_blockBytes s x).symm ▸ h.resolve_left (Nat.succ_ne_zero _))
  | load x => exact exists_effect_guardRange fun _ => .load (Memory.length_getRange _ _ _)

/-- The next state of an instruction is one of its effects. -/
theorem effect_of_exec {i : Instr} {s t : State} (h : exec i s = .next t) : Effect s i t := by
  obtain ⟨u, hu, heffect⟩ := exists_effect i s
  cases hu.symm.trans h
  exact heffect

/-- Every cycle ends in a next state: it is held, it raises an error of the fetch or of decode, or it executes an instruction. -/
theorem exists_step (s : State) :
    ∃ t, step s = .next t ∧
      (t = s ∨ (s.awaiting = none ∧ ∃ e, t = s.setFault (some e)) ∨
        (Ready s ∧ s.pc.toNat ≤ 0xFFE ∧ ∃ i, Effect s i t)) := by
  rcases step_cases s with ⟨hheld, -⟩ | ⟨hf, ha, ⟨e, hraise, -⟩ | ⟨i, hexec, hr, -⟩⟩
  · exact ⟨s, hheld, .inl rfl⟩
  · exact ⟨_, hraise, .inr (.inl ⟨ha, e, rfl⟩)⟩
  · obtain ⟨t, ht, heffect⟩ := exists_effect i s
    exact ⟨t, hexec.trans ht, .inr (.inr ⟨⟨hf, ha⟩, hr, i, heffect⟩)⟩

/-! ### Updates that keep the invariant -/

/-- The invariant speaks of five parts only. -/
theorem Inv.of_same {s t : State} (hs : Inv s) (hmem : t.mem = s.mem) (hstack : t.stack = s.stack) (hpc : t.pc = s.pc)
    (hfault : t.fault = s.fault) (hawaiting : t.awaiting = s.awaiting) : Inv t where
  memory := hmem ▸ hs.memory
  depth := hstack ▸ hs.depth
  returns := hstack ▸ hs.returns
  pcBound := hpc ▸ hs.pcBound
  oneWait := by rw [hfault, hawaiting]; exact hs.oneWait

theorem Inv.setPc {s : State} (hs : Inv s) {w : Word} (hw : w.toNat ≤ 0x10FE) : Inv (s.setPc w) :=
  { hs with pcBound := hw }

theorem Inv.setStack {s : State} (hs : Inv s) {l : List Word} (hdepth : l.length ≤ 16) (hreturns : ∀ w ∈ l, w.toNat ≤ 0x1000) :
    Inv (s.setStack l) :=
  { hs with depth := hdepth, returns := hreturns }

theorem Inv.setRange {s : State} (hs : Inv s) {base : Nat} {bs : List Byte} (h : base + bs.length ≤ 0x1000) :
    Inv (s.setMem (Memory.setRange s.mem base bs)) :=
  { hs with memory := Memory.wf_setRange hs.memory h }

theorem Inv.setFault {s : State} (hs : Inv s) (ha : s.awaiting = none) (e : Option CycleError) : Inv (s.setFault e) :=
  { hs with oneWait := .inr ha }

theorem Inv.setAwaiting {s : State} (hs : Inv s) {a : Option Reg} (h : s.fault = none ∨ a = none) : Inv (s.setAwaiting a) :=
  { hs with oneWait := h }

/-- A fetch address leaves room for a skip. -/
theorem Target.le {s : State} {w : Word} (hw : Target s w) (hr : s.pc.toNat ≤ 0xFFE) : w.toNat ≤ 0x10FE := by
  rcases hw with h | h <;> omega

theorem toNat_add_two {w : Word} (hr : w.toNat ≤ 0xFFE) : (w + 2#16).toNat = w.toNat + 2 :=
  BitVec.toNat_add_of_lt (by simp; omega)

theorem Inv.advance {s : State} (hs : Inv s) (hr : s.pc.toNat ≤ 0xFFE) : Inv s.advance :=
  hs.setPc (by rw [toNat_add_two hr]; omega)

/-- Every effect of an instruction that was fetched keeps the invariant. -/
theorem Effect.inv {s t : State} {i : Instr} (h : Effect s i t) (hs : Inv s) (hready : Ready s) (hr : s.pc.toNat ≤ 0xFFE) :
    Inv t := by
  have hadvance := hs.advance hr
  cases h with
  | raises e => exact hs.setFault hready.2 _
  | jump hw => exact hs.setPc (hw.le hr)
  | call nnn hdepth =>
    refine (hs.setStack ?_ fun w hw => ?_).setPc ((target_addrOperand s nnn).le hr)
    · simpa using hdepth
    · rcases List.mem_append.mp hw with hw | hw
      · exact hs.returns w hw
      · rw [List.mem_singleton.mp hw, toNat_add_two hr]
        omega
  | @ret rest w hstack =>
    obtain ⟨hdepth, hreturns⟩ := And.intro hs.depth hs.returns
    simp only [hstack, List.length_append, List.mem_append] at hdepth hreturns
    exact (hs.setStack (by omega) fun v hv => hreturns v (.inl hv)).setPc ((hreturns w (by simp)).trans (by decide))
  | skipOnKey _ hw => exact (hs.setPc (hw.le hr)).of_same rfl rfl rfl rfl rfl
  | wait x => exact hadvance.setAwaiting (.inl hready.1)
  | store _ hrange => exact hadvance.setRange hrange
  | result | draw => exact hadvance.of_same (by simp) (by simp) (by simp) (by simp) (by simp)
  | random | index | request | delay | sound | load => exact hadvance.of_same rfl rfl rfl rfl rfl

theorem soundStep {s : State} (hs : Inv s) : SoundStep s := by
  obtain ⟨t, hstep, rfl | ⟨ha, e, rfl⟩ | ⟨hready, hr, i, heffect⟩⟩ := exists_step s
  · exact ⟨_, hstep, hs⟩
  · exact ⟨_, hstep, hs.setFault ha _⟩
  · exact ⟨t, hstep, heffect.inv hs hready hr⟩

theorem Inv.step {s t : State} (hs : Inv s) (h : step s = .next t) : Inv t := by
  obtain ⟨u, hu, hinv⟩ := soundStep hs
  cases hu.symm.trans h
  exact hinv

/-! ### The host's operations keep the invariant (60_exceptions.md R123) -/

theorem inv_reset : Inv State.reset where
  memory := Memory.wf_nil
  depth := by decide
  returns := by simp [State.reset]
  pcBound := by decide
  oneWait := .inl rfl

theorem wf_resetMemory (p : Config.Params) : Memory.wf (resetMemory p) := by
  refine Memory.wf_setRange Memory.wf_nil ?_
  simp only [List.length_take, progBase_eq, memSize_eq]
  omega

theorem inv_hostReset (s : State) : Inv (hostReset s) :=
  { inv_reset with memory := wf_resetMemory s.params }

/-- Every operation of the host that answers a next state keeps the invariant. -/
theorem Inv.perform {s t : State} {op : HostOp} (hs : Inv s) (h : perform op s = .next t) : Inv t := by
  cases op with
  | runOneCycle => exact hs.step h
  | reset =>
    cases h
    exact inv_hostReset s
  | loadProgram image =>
    obtain ⟨hfits, rfl⟩ := loadProgram_next h
    exact (hs.setRange (by omega)).setPc (by decide)
  | supplyKey k =>
    obtain ⟨-, ⟨-, rfl⟩ | ⟨x, -, rfl⟩⟩ := supplyKey_next h
    · exact hs
    · exact (hs.of_same (t := s.setV x _) rfl rfl rfl rfl rfl).setAwaiting (.inr rfl)
  | tickTimers =>
    cases h
    exact hs.of_same rfl rfl rfl rfl rfl

/-- By induction on the list of operations; an operation that is turned down leaves the run at the same state. -/
theorem Inv.runOps {s t : State} {ops : List HostOp} (hs : Inv s) (h : runOps ops s = some t) : Inv t := by
  induction ops generalizing s with
  | nil =>
    cases h
    exact hs
  | cons op ops ih =>
    rw [Machine.runOps] at h
    split at h
    · next u hperform => exact ih (hs.perform hperform) h
    · exact ih hs h
    · cases h

/-! ### The writers of each part (10_state.md R22 to R30, 60_exceptions.md R130) -/

section Writers

variable {s t : State} {i : Instr} (h : Effect s i t)
include h

theorem Effect.i_eq : t.i = s.i ∨ IndexWriter i := by
  cases h with
  | index hi => exact .inr hi
  | result | draw => exact .inl (State.setFlag_i _ _)
  | _ => exact .inl rfl

theorem Effect.stack_eq : t.stack = s.stack ∨ (∃ nnn, i = .call nnn) ∨ i = .ret := by
  cases h with
  | call nnn => exact .inr (.inl ⟨nnn, rfl⟩)
  | ret => exact .inr (.inr rfl)
  | result | draw => exact .inl (State.setFlag_stack _ _)
  | _ => exact .inl rfl

theorem Effect.dt_eq : t.dt = s.dt ∨ ∃ x, i = .ldDtVx x := by
  cases h with
  | delay x => exact .inr ⟨x, rfl⟩
  | result | draw => exact .inl (State.setFlag_dt _ _)
  | _ => exact .inl rfl

theorem Effect.st_eq : t.st = s.st ∨ ∃ x, i = .ldStVx x := by
  cases h with
  | sound x => exact .inr ⟨x, rfl⟩
  | result | draw => exact .inl (State.setFlag_st _ _)
  | _ => exact .inl rfl

theorem Effect.awaiting_eq : t.awaiting = s.awaiting ∨ ∃ x, i = .ldVxK x := by
  cases h with
  | wait x => exact .inr ⟨x, rfl⟩
  | result | draw => exact .inl (State.setFlag_awaiting _ _)
  | _ => exact .inl rfl

theorem Effect.mem_eq : t.mem = s.mem ∨ MemoryWriter i := by
  cases h with
  | store hi => exact .inr hi
  | result | draw => exact .inl (State.setFlag_mem _ _)
  | _ => exact .inl rfl

theorem Effect.calls_eq : t.calls = s.calls ∨ Caller i := by
  cases h with
  | request => exact .inr (.inl rfl)
  | random x kk => exact .inr (.inr (.inl ⟨x, kk, rfl⟩))
  | draw x y n => exact .inr (.inr (.inr (.inl ⟨x, y, n, rfl⟩)))
  | skipOnKey hi => exact .inr hi
  | result => exact .inl (State.setFlag_calls _ _)
  | _ => exact .inl rfl

theorem Effect.params_eq : t.params = s.params := by
  cases h with
  | result | draw => exact State.setFlag_params _ _
  | _ => rfl

/-- A register changes as the destination, as one of the registers loaded, or as VF. -/
theorem Effect.getV_eq (r : Reg) :
    t.getV r = s.getV r ∨ Destination i r ∨ (∃ x, r ≤ x ∧ i = .load x) ∨ (r = 15 ∧ FlagWriter i) := by
  cases h with
  | @result _ x b f hx hf =>
    by_cases hr : r = x
    · exact .inr (.inl (hr ▸ hx))
    by_cases hflag : r = 15
    · rcases hf with rfl | hi
      · exact .inl ((State.getV_setV s.advance x r b).trans (if_neg hr))
      · exact .inr (.inr (.inr ⟨hflag, hi⟩))
    · exact .inl (getV_result_flag_other hr hflag)
  | random x kk b =>
    by_cases hr : r = x
    · exact .inr (.inl (.inl ⟨kk, by simp [hr]⟩))
    · exact .inl ((State.getV_setV (s.ask .randomByte).advance x r b).trans (if_neg hr))
  | draw x y n c f =>
    by_cases hflag : r = 15
    · exact .inr (.inr (.inr ⟨hflag, x, y, by simp⟩))
    · cases f with
      | none => exact .inl rfl
      | some b => exact .inl ((State.getV_setFlag_some _ b r).trans (if_neg hflag))
  | @load x bs hlen =>
    rcases le_or_gt r x with hr | hr
    · exact .inr (.inr (.inl ⟨x, hr, rfl⟩))
    · have hpast : bs.length ≤ r.val := hlen ▸ hr
      exact .inl ((State.getV_loadV s.advance bs r).trans (List.getD_eq_default _ _ hpast))
  | _ => exact .inl rfl

end Writers

end Sys2Proof.Machine
end

section
/-! SUPPORT. The proofs of the whole-machine rules, and of the statements of 40_cycle.md, 60_exceptions.md and 70_reset_and_hazards.md that
rest on them. Before the obligations: two runs that differ in what no instruction reads. -/

namespace Sys2Proof.Machine

/-! ### The parts no instruction reads (10_state.md R29, R32) -/

/-- `s` with other values of `ST`, `awaiting` and the fault latch. -/
def State.withUnread (s : State) (st' : Byte) (aw : Option Reg) (fl : Option CycleError) : State :=
  { s with st := st', awaiting := aw, fault := fl }

/-- How the meaning of `i` from `s` and its meaning from `s.withUnread st' aw fl` end: alike, the second with the three values put in,
but for what `i` itself writes of them. -/
inductive RunsAlike (i : Instr) (s : State) (st' : Byte) (aw : Option Reg) (fl : Option CycleError) :
    Host.Outcome State Fault Refusal → Host.Outcome State Fault Refusal → Prop where
  | commits (t : State) : RunsAlike i s st' aw fl (.next t) (.next (t.withUnread st' aw fl))
  | raises (e : CycleError) :
      RunsAlike i s st' aw fl (.next (s.setFault (some e))) (.next (s.withUnread st' aw (some e)))
  | sound (x : Reg) (t : State) (hi : i = .ldStVx x) :
      RunsAlike i s st' aw fl (.next t) (.next (t.withUnread (s.getV x) aw fl))
  | wait (x : Reg) (t : State) (hi : i = .ldVxK x) :
      RunsAlike i s st' aw fl (.next t) (.next (t.withUnread st' (some x) fl))

section RunsAlike

variable (i : Instr) (s : State) (st' : Byte) (aw : Option Reg) (fl : Option CycleError)

/-- The flag is written, or left, alike. -/
theorem State.setFlag_withUnread (f : Option Byte) :
    (s.withUnread st' aw fl).setFlag f = (s.setFlag f).withUnread st' aw fl := by cases f <;> rfl

theorem runsAlike_setFlag (t : State) (f : Option Byte) :
    RunsAlike i s st' aw fl (.next (t.setFlag f)) (.next ((t.withUnread st' aw fl).setFlag f)) := by
  rw [State.setFlag_withUnread]
  exact .commits _

/-- The bounds check does not read them. -/
theorem runsAlike_guardRange (base len : Nat) {t t' : State} (h : RunsAlike i s st' aw fl (.next t) (.next t')) :
    RunsAlike i s st' aw fl (guardRange base len s t) (guardRange base len (s.withUnread st' aw fl) t') := by
  unfold guardRange
  split
  · exact .raises _
  · exact h

theorem runsAlike_execRet :
    RunsAlike i s st' aw fl (execRet s) (execRet (s.withUnread st' aw fl)) := by
  rcases List.eq_nil_or_concat' s.stack with hnil | ⟨rest, w, hstack⟩
  · have hnil' : (s.withUnread st' aw fl).stack = [] := hnil
    rw [raises_execRet_of_nil hnil, raises_execRet_of_nil hnil']
    exact .raises _
  · have hstack' : (s.withUnread st' aw fl).stack = rest ++ [w] := hstack
    rw [execRet_of_append hstack, execRet_of_append hstack']
    exact .commits _

theorem runsAlike_execCall (nnn : Addr12) :
    RunsAlike i s st' aw fl (execCall nnn s) (execCall nnn (s.withUnread st' aw fl)) := by
  rcases Nat.lt_or_ge s.stack.length 16 with hlt | hfull
  · have hlt' : (s.withUnread st' aw fl).stack.length < 16 := hlt
    rw [execCall_of_lt nnn hlt, execCall_of_lt nnn hlt']
    exact .commits _
  · have hfull' : 16 ≤ (s.withUnread st' aw fl).stack.length := hfull
    rw [raises_execCall_of_full nnn hfull, raises_execCall_of_full nnn hfull']
    exact .raises _

/-- The instructions by their shape: those with no check end alike by definition. -/
theorem runsAlike_exec : RunsAlike i s st' aw fl (exec i s) (exec i (s.withUnread st' aw fl)) := by
  cases i with
  | ret => exact runsAlike_execRet _ s st' aw fl
  | call nnn => exact runsAlike_execCall _ s st' aw fl nnn
  | sys _ => exact .raises _
  | drw _ _ _ => exact runsAlike_guardRange _ s st' aw fl _ _ (runsAlike_setFlag _ s st' aw fl _ _)
  | ldB _ | dump _ | load _ => exact runsAlike_guardRange _ s st' aw fl _ _ (.commits _)
  | ldImm _ _ | addImm _ _ | ldReg _ _ | orReg _ _ | andReg _ _ | xorReg _ _ | addReg _ _ | subReg _ _ | shr _ _ | subn _ _
  | shl _ _ | rnd _ _ => exact runsAlike_setFlag _ s st' aw fl _ _
  | ldStVx x => exact .sound x _ rfl
  | ldVxK x => exact .wait x _ rfl
  | cls | jp _ | jpV0 _ | seImm _ _ | sneImm _ _ | seReg _ _ | sneReg _ _ | ldI _ | addI _ | skp _ | sknp _ | ldVxDt _
  | ldDtVx _ | ldF _ => exact .commits _

end RunsAlike

/-! ### Operations of the host, in cases -/

theorem supplyKey_of_wait {k : Nat} {s : State} {x : Reg} (hk : k < 16) (ha : s.awaiting = some x) :
    supplyKey k s = .next ((s.setV x (BitVec.ofNat 8 k)).setAwaiting none) := by
  rw [supplyKey, keyCount_eq, if_neg (Nat.not_le.mpr hk), ha]

theorem supplyKey_of_no_wait {k : Nat} {s : State} (hk : k < 16) (ha : s.awaiting = none) : supplyKey k s = .next s := by
  rw [supplyKey, keyCount_eq, if_neg (Nat.not_le.mpr hk), ha]

theorem supplyKey_of_out_of_range {k : Nat} (s : State) (hk : 16 ≤ k) : supplyKey k s = .refused (.keyOutOfRange k) :=
  if_pos hk

theorem onlyChanges_setAwaiting (s : State) (a : Option Reg) : OnlyChanges [.awaiting] s (s.setAwaiting a) := by
  refine ⟨fun p hp => ?_, rfl⟩
  cases p with
  | awaiting => simp at hp
  | mem | v => exact fun _ => rfl
  | calls => exact ⟨rfl, rfl⟩
  | i | pc | stack | dt | st | fault => rfl

/-- A key that ends a wait: it is written to the register waited for, and only the register and the wait change. -/
theorem supplyKey_ends_wait {k : Nat} {s : State} {x : Reg} (hk : k < 16) (ha : s.awaiting = some x) :
    ∃ t, supplyKey k s = .next t ∧ (t.getV x).toNat = k ∧ (∀ r, r ≠ x → t.getV r = s.getV r) ∧ t.awaiting = none ∧
      OnlyChanges [.v, .awaiting] s t := by
  refine ⟨_, supplyKey_of_wait hk ha, ?_, fun r hr => ?_, rfl, (onlyChanges_setV s x _).trans (onlyChanges_setAwaiting _ none)⟩
  · rw [State.getV_setAwaiting, State.getV_setV, if_pos rfl]
    exact Nat.mod_eq_of_lt (by omega)
  · rw [State.getV_setAwaiting, State.getV_setV, if_neg hr]

theorem runOps_cons_of_next {op : HostOp} {s t : State} (ops : List HostOp) (h : perform op s = .next t) :
    runOps (op :: ops) s = runOps ops t := by
  rw [runOps, h]

/-- The default reserved image leaves memory empty. -/
theorem resetMemory_of_nil {p : Config.Params} (h : p.reservedImage = []) : resetMemory p = [] := by
  rw [resetMemory, h]
  rfl

/-- An even `pc` is aligned under either policy. -/
theorem aligned_of_pc_eq {s : State} {w : Word} (hpc : s.pc = w) (heven : w.toNat % 2 = 0) :
    ¬(s.pc.toNat % 2 = 1 ∧ s.params.oddPc = .fault) := by
  rintro ⟨hodd, -⟩
  rw [hpc] at hodd
  omega

/-- The fetch from an even address in range. -/
theorem fetchWord_of_pc_eq {s : State} {w : Word} (hpc : s.pc = w) (heven : w.toNat % 2 = 0) (hr : w.toNat ≤ 0xFFE) :
    fetchWord s = .ok (Memory.get s.mem w.toNat ++ Memory.get s.mem (w.toNat + 1)) := by
  subst hpc
  exact fetchWord_of_in (aligned_of_pc_eq rfl heven) hr

/-! ### The obligations -/

/-- Settles O52: each effect keeps the invariant, and so does a held or a raising cycle. -/
theorem stepKeepsInvariant : Obligations.StepKeepsInvariant := fun _ => soundStep

/-- Settles O53: by induction on the run. -/
theorem everyRunKeepsInvariant : Obligations.EveryRunKeepsInvariant := fun _ _ _ => Inv.runOps

/-- Settles O54: the first bound is the invariant's; a fetch that succeeds is from at most 0xFFE. -/
theorem pcNeverWraps : Obligations.PcNeverWraps := by
  refine fun s t hs hstep => ⟨(hs.step hstep).pcBound, fun w hw => ?_⟩
  have hr : s.pc.toNat ≤ 0xFFE := by
    rcases fetchWord_cases s with ⟨herr, -⟩ | ⟨herr, -⟩ | ⟨-, hr, -⟩
    · cases herr.symm.trans hw
    · cases herr.symm.trans hw
    · exact hr
  exact ⟨toNat_add_two hr, BitVec.toNat_add_of_lt (by simp; omega), by omega⟩

/-- Settles O55: part by part, from the effects. -/
theorem writersOfEachPart : Obligations.WritersOfEachPart := by
  intro i s t hexec
  have h := effect_of_exec hexec
  exact ⟨h.i_eq.resolve_left, h.stack_eq.resolve_left, h.dt_eq.resolve_left, h.st_eq.resolve_left, h.awaiting_eq.resolve_left,
    h.mem_eq.resolve_left, h.calls_eq.resolve_left, h.params_eq⟩

/-- Settles O56: from the effects, register by register. -/
theorem writersOfEachRegister : Obligations.WritersOfEachRegister := by
  intro i s t r hexec hne
  rcases ((effect_of_exec hexec).getV_eq r).resolve_left hne with (himm | hreg | hdt) | hload | hflag
  · exact .inl himm
  · exact .inr (.inl hreg)
  · exact .inr (.inr (.inl hdt))
  · exact .inr (.inr (.inr (.inl hload)))
  · exact .inr (.inr (.inr (.inr hflag)))

/-- Settles O57: the two runs end alike, but for what the instruction itself writes. -/
theorem soundTimerAndWaitsAreNeverRead : Obligations.SoundTimerAndWaitsAreNeverRead := by
  intro i s t st' aw fl hexec
  have halike := runsAlike_exec i s st' aw fl
  rw [hexec] at halike
  change ∃ u, exec i (s.withUnread st' aw fl) = .next u ∧ _
  generalize exec i (s.withUnread st' aw fl) = o at halike
  cases halike with
  | commits => exact ⟨_, rfl, rfl, .inl rfl, .inl rfl, .inl rfl⟩
  | raises e => exact ⟨_, rfl, rfl, .inl rfl, .inl rfl, .inr ⟨e, rfl, rfl⟩⟩
  | sound x _ hi => exact ⟨_, rfl, rfl, .inr ⟨x, hi, rfl⟩, .inl rfl, .inl rfl⟩
  | wait x _ hi => exact ⟨_, rfl, rfl, .inl rfl, .inr ⟨x, hi, rfl⟩, .inl rfl⟩

/-- Settles O51: each part at its reset value. -/
theorem resetMeetsInvariant : Obligations.ResetMeetsInvariant := inv_reset

/-- Settles O44: the reset values, and the registers one by one. -/
theorem resetStateIsZero : Obligations.ResetStateIsZero :=
  ⟨Memory.get_nil, fun r => getV_hostReset State.reset r, rfl, rfl, rfl, rfl, rfl, rfl, rfl⟩

/-- Settles O11: one next state for each way a cycle goes. -/
theorem everyStepAnswersNext : Obligations.EveryStepAnswersNext := fun s =>
  (exists_step s).imp fun _ => And.left

/-- Settles O10: a latched cycle is held, and `perform_keeps_latch` covers the other operations. -/
theorem latchHoldsUntilReset : Obligations.LatchHoldsUntilReset := fun s _ hs =>
  ⟨step_of_latched hs, cycleOutcome_of_latched s hs, fun _ _ => perform_keeps_latch hs, hostReset s, rfl, rfl⟩

/-- Settles O6: the fetch is allowed, and the word decodes. -/
theorem stepRunsDecodedInstruction : Obligations.StepRunsDecodedInstruction := by
  intro s i hs hr hm hd
  rw [step, startCycle_ready hs.1 hs.2, fetchWord_of_in hm hr]
  simp only [wordOfBytes, hd]

/-- Settles O12: the cycle is the jump's, which writes the value `pc` has. -/
theorem spinLeavesStateUnchanged : Obligations.SpinLeavesStateUnchanged := by
  intro s nnn hs hm hr hpc hw
  have hstep : step s = exec (.jp nnn) s := stepRunsDecodedInstruction s _ hs hr hm (hw ▸ decode_jp nnn)
  have htarget : addrOperand nnn = s.pc := BitVec.eq_of_toNat_eq ((toNat_addrOperand nnn).trans hpc.symm)
  rw [hstep]
  change Host.Outcome.next (s.setPc (addrOperand nnn)) = _
  rw [htarget]
  rfl

/-- Settles O17: the return pops what the call pushed. -/
theorem callThenReturnComesBack : Obligations.CallThenReturnComesBack := fun nnn _ hlt =>
  ⟨_, execCall_of_lt nnn hlt, fun _ hstack => ⟨_, execRet_of_append hstack, rfl, rfl⟩⟩

/-- Settles O42: the dump leaves the registers' bytes in the block that the load reads. -/
theorem dumpThenLoadRestores : Obligations.DumpThenLoadRestores := by
  intro x s hs hin
  obtain ⟨-, -, hdump⟩ := dumpStoresRegisters x s hs
  obtain ⟨t, ht, hstored, -, -, hframe, -⟩ := hdump hin
  refine ⟨t, ht, fun t' hmem hi => ?_⟩
  have hi' : t'.i = s.i := hi.trans (hframe .i (by simp))
  obtain ⟨-, -, hload⟩ := loadReadsRegisters x t'
  obtain ⟨u, hu, hloaded, -⟩ := hload (hi'.symm ▸ hin)
  exact ⟨u, hu, fun r hr => by rw [hloaded r hr, hi', hmem, hstored r hr]⟩

/-- Settles O43: the two bytes at the next fetch address are `V[r]` and `V[r+1]` of the block. -/
theorem storeIsSeenByNextFetch : Obligations.StoreIsSeenByNextFetch := by
  intro x r s hs hin hrx haddr hm
  obtain ⟨-, -, hdump⟩ := dumpStoresRegisters x s hs
  obtain ⟨t, ht, hstored, -, hpc, -, hparams⟩ := hdump hin
  have hnext : (r + 1).val = r.val + 1 := Fin.val_add_one_of_lt' (by omega)
  have hhi := hstored r (Fin.le_def.mpr (by omega))
  have hlo := hstored (r + 1) (Fin.le_def.mpr (hnext.trans_le hrx))
  refine ⟨t, ht, (fetchWord_of_in (by rwa [hpc, hparams]) (by rw [hpc]; omega)).trans ?_⟩
  rw [hpc, haddr, hhi, Nat.add_assoc, ← hnext, hlo]
  rfl

/-- Settles O47: the load puts the two bytes at 0x200; the empty reserved image leaves the word 0 at 0, which is a `SYS`. -/
theorem firstCycleFetchesEntryPoint : Obligations.FirstCycleFetchesEntryPoint := by
  refine ⟨fun s hi lo rest hfits => ?_, fun s himage => ?_⟩
  · have hrun := (runOps_cons_of_next (op := .reset) [.loadProgram (hi :: lo :: rest)] (t := hostReset s) rfl).trans
      (runOps_cons_of_next [] (loadProgram_of_fits (hostReset s) hfits))
    have loaded (j : Nat) := Memory.get_setRange_inside (wf_resetMemory s.params).1 0x200 (hi :: lo :: rest) (j := j)
    refine ⟨_, hrun, ⟨rfl, rfl⟩, rfl, (fetchWord_of_pc_eq (w := 0x200#16) rfl (by decide) (by decide)).trans ?_⟩
    exact congrArg₂ (fun a b : Byte => Except.ok (a ++ b)) (loaded 0 (by simp)) (loaded 1 (by simp))
  · have hdecode : decode (Memory.get (hostReset s).mem 0 ++ Memory.get (hostReset s).mem 1) = .ok (.sys 0#12) := by
      rw [show (hostReset s).mem = [] from resetMemory_of_nil himage]
      decide
    have hstep := stepRunsDecodedInstruction (hostReset s) _ ⟨rfl, rfl⟩ (Nat.zero_le _)
      (aligned_of_pc_eq (w := 0#16) rfl (by decide)) hdecode
    exact ⟨hostReset s, rfl, hstep.trans (raises_execSys 0#12 (hostReset s))⟩

/-- Settles O49: the cases of `supplyKey`; and a run keeps the invariant, which holds that not both are set. -/
theorem supplyKeyEndsPendingWait : Obligations.SupplyKeyEndsPendingWait :=
  ⟨fun _ _ _ => supplyKey_ends_wait, fun _ _ => supplyKey_of_no_wait, fun _ s => supplyKey_of_out_of_range s,
    fun _ _ _ hs hrun => (hs.runOps hrun).oneWait⟩

end Sys2Proof.Machine
end

section
/-! SUPPORT. The proofs of the family 30_encoding.md, and of the instructions left of 42_data_ops.md and 43_io_adjacent.md. First the laws
they need: every word decoded from its instruction, the words that fail, and the rows of the opcode map. Then the obligations. -/

namespace Sys2Proof

/-! ### Words of the remaining instructions (30_encoding.md R53, R54, R56) -/

theorem decode_cls : decode 0x00E0#16 = .ok .cls := by decide

theorem decode_ret : decode 0x00EE#16 = .ok .ret := by decide

theorem decode_subn (x y : Reg) : decode (formatXY 0x8#4 x y 0x7#4) = .ok (.subn x y) := by
  simp [decode_formatXY_eight, decode8]

theorem decode_ldVxK (x : Reg) : decode (formatXK 0xF#4 x 0x0A#8) = .ok (.ldVxK x) := by
  simp [decode_formatXK_fifteen, decodeF]

/-! ### From an instruction to its word and back -/

/-- The decoder reads a well-formed instruction from its word. -/
theorem decode_encode {i : Instr} (hwf : i.wellFormed = true) : decode (encode i) = .ok i := by
  cases i with
  | cls => exact decode_cls
  | ret => exact decode_ret
  | sys nnn =>
    obtain ⟨hcls, hret⟩ : nnn ≠ 0x0E0#12 ∧ nnn ≠ 0x0EE#12 := by simpa [Instr.wellFormed] using hwf
    exact decode_sys hcls hret
  | jp nnn => exact decode_jp nnn
  | call nnn => exact decode_call nnn
  | seImm x kk => exact decode_seImm x kk
  | sneImm x kk => exact decode_sneImm x kk
  | seReg x y => exact decode_seReg x y 0
  | ldImm x kk => exact decode_ldImm x kk
  | addImm x kk => exact decode_addImm x kk
  | ldReg x y => exact decode_ldReg x y
  | orReg x y => exact decode_orReg x y
  | andReg x y => exact decode_andReg x y
  | xorReg x y => exact decode_xorReg x y
  | addReg x y => exact decode_addReg x y
  | subReg x y => exact decode_subReg x y
  | shr x y => exact decode_shr x y
  | subn x y => exact decode_subn x y
  | shl x y => exact decode_shl x y
  | sneReg x y => exact decode_sneReg x y 0
  | ldI nnn => exact decode_ldI nnn
  | jpV0 nnn => exact decode_jpV0 nnn
  | rnd x kk => exact decode_rnd x kk
  | drw x y n => exact decode_drw x y n
  | skp x => exact decode_skp x
  | sknp x => exact decode_sknp x
  | ldVxDt x => exact decode_ldVxDt x
  | ldVxK x => exact decode_ldVxK x
  | ldDtVx x => exact decode_ldDtVx x
  | ldStVx x => exact decode_ldStVx x
  | addI x => exact decode_addI x
  | ldF x => exact decode_ldF x
  | ldB x => exact decode_ldB x
  | dump x => exact decode_dump x
  | load x => exact decode_load x

/-- Decoding two bytes in memory order is decoding the word they are. -/
theorem decodeBytes_of_decode {w : Word} {i : Instr} (h : decode w = .ok i) :
    decodeBytes [wordHi w, wordLo w] = .ok (i, []) := by
  simp only [decodeBytes, wordOfBytes_split, h]

/-! ### From a word to its instruction and back -/

/-- `Decoded w i`: the instruction is well formed, and its word is `w`, but for the low nibble of the families 5 and 9. -/
def Decoded (w : Word) (i : Instr) : Prop :=
  i.wellFormed = true ∧ (encode i = w ∨ ((fieldF w = 0x5#4 ∨ fieldF w = 0x9#4) ∧ encode i = w &&& 0xFFF0#16))

section Fields

variable {w : Word} {f : Nibble}

theorem formatA_of_family (hf : (fieldF w).toNat = f.toNat) : formatA f (fieldNNN w) = w := by
  rw [← BitVec.eq_of_toNat_eq hf, formatA_fields]

theorem formatXK_of_family (hf : (fieldF w).toNat = f.toNat) : formatXK f (fieldX w) (fieldKK w) = w := by
  rw [← BitVec.eq_of_toNat_eq hf, formatXK_fields]

theorem formatXK_of_lowByte {kk : Byte} (hf : (fieldF w).toNat = f.toNat) (hk : (fieldKK w).toNat = kk.toNat) :
    formatXK f (fieldX w) kk = w := by
  rw [← BitVec.eq_of_toNat_eq hk, formatXK_of_family hf]

theorem formatXY_of_family (hf : (fieldF w).toNat = f.toNat) : formatXY f (fieldX w) (fieldY w) (fieldN w) = w := by
  rw [← BitVec.eq_of_toNat_eq hf, formatXY_fields]

theorem formatXY_of_lowNibble {n : Nibble} (hf : (fieldF w).toNat = f.toNat) (hn : (fieldN w).toNat = n.toNat) :
    formatXY f (fieldX w) (fieldY w) n = w := by
  rw [← BitVec.eq_of_toNat_eq hn, formatXY_of_family hf]

/-- Clearing the low nibble of a word clears `n`. -/
theorem formatXY_clear_low (f : Nibble) (x y : Reg) (n : Nibble) :
    formatXY f x y n &&& 0xFFF0#16 = formatXY f x y 0 := by
  apply BitVec.eq_of_getLsbD_eq
  intro i hi
  interval_cases i <;> simp [getLsbD_formatXY, -BitVec.getLsbD_eq_getElem]

theorem formatXY_of_family_clear (hf : (fieldF w).toNat = f.toNat) :
    formatXY f (fieldX w) (fieldY w) 0 = w &&& 0xFFF0#16 := by
  rw [← formatXY_clear_low f _ _ (fieldN w), formatXY_of_family hf]

end Fields

theorem decoded_decode0 {w : Word} (hf : (fieldF w).toNat = 0) : Decoded w (decode0 w) := by
  have hw : formatA 0x0#4 (fieldNNN w) = w := formatA_of_family hf
  unfold decode0
  split_ifs with hcls hret
  · exact ⟨rfl, .inl hcls.symm⟩
  · exact ⟨rfl, .inl hret.symm⟩
  · refine ⟨?_, .inl hw⟩
    have hcls' : fieldNNN w ≠ 0x0E0#12 := fun h => hcls (by rw [← hw, h]; decide)
    have hret' : fieldNNN w ≠ 0x0EE#12 := fun h => hret (by rw [← hw, h]; decide)
    simp [Instr.wellFormed, hcls', hret']

theorem decoded_decode8 {w : Word} {i : Instr} (hf : (fieldF w).toNat = 8) (h : decode8 w = .ok i) : Decoded w i := by
  unfold decode8 at h
  split at h <;> cases h
  all_goals exact ⟨rfl, .inl (formatXY_of_lowNibble hf (by assumption))⟩

theorem decoded_decodeE {w : Word} {i : Instr} (hf : (fieldF w).toNat = 14) (h : decodeE w = .ok i) : Decoded w i := by
  unfold decodeE at h
  split at h <;> cases h
  all_goals exact ⟨rfl, .inl (formatXK_of_lowByte hf (by assumption))⟩

theorem decoded_decodeF {w : Word} {i : Instr} (hf : (fieldF w).toNat = 15) (h : decodeF w = .ok i) : Decoded w i := by
  unfold decodeF at h
  split at h <;> cases h
  all_goals exact ⟨rfl, .inl (formatXK_of_lowByte hf (by assumption))⟩

/-- The instruction of a word, by the word's family (R52). -/
theorem decoded_of_decode {w : Word} {i : Instr} (h : decode w = .ok i) : Decoded w i := by
  unfold decode at h
  split at h
  case h_1 hf => cases h; exact decoded_decode0 hf
  case h_9 hf => exact decoded_decode8 hf h
  case h_15 hf => exact decoded_decodeE hf h
  case h_16 =>
    have hlt : (fieldF w).toNat < 16 := (fieldF w).isLt
    simp only [imp_false] at *
    exact decoded_decodeF (by omega) h
  case h_6 hf => cases h; exact ⟨rfl, .inr ⟨.inl (BitVec.eq_of_toNat_eq hf), formatXY_of_family_clear hf⟩⟩
  case h_10 hf => cases h; exact ⟨rfl, .inr ⟨.inr (BitVec.eq_of_toNat_eq hf), formatXY_of_family_clear hf⟩⟩
  case h_2 hf | h_3 hf | h_11 hf | h_12 hf => cases h; exact ⟨rfl, .inl (formatA_of_family hf)⟩
  case h_4 hf | h_5 hf | h_7 hf | h_8 hf | h_13 hf => cases h; exact ⟨rfl, .inl (formatXK_of_family hf)⟩
  case h_14 hf => cases h; exact ⟨rfl, .inl (formatXY_of_family hf)⟩

/-! ### The words that fail to decode (30_encoding.md R58) -/

/-- The parts of the families 8, E and F that no sub-opcode covers. -/
abbrev Undefined (w : Word) : Prop :=
  (fieldF w = 0x8#4 ∧ fieldN w ∈ [0x8#4, 0x9#4, 0xA#4, 0xB#4, 0xC#4, 0xD#4, 0xF#4]) ∨
  (fieldF w = 0xE#4 ∧ fieldKK w ∉ [0x9E#8, 0xA1#8]) ∨
  (fieldF w = 0xF#4 ∧ fieldKK w ∉ [0x07#8, 0x0A#8, 0x15#8, 0x18#8, 0x1E#8, 0x29#8, 0x33#8, 0x55#8, 0x65#8])

section Failures

variable {w : Word} {e : DecodeReject}

theorem decode8_eq_error_iff :
    decode8 w = .error e ↔ fieldN w ∈ [0x8#4, 0x9#4, 0xA#4, 0xB#4, 0xC#4, 0xD#4, 0xF#4] ∧ e = .noPattern w := by
  simp only [List.mem_cons, List.not_mem_nil, or_false, ← BitVec.toNat_inj]
  unfold decode8
  split
  case h_10 =>
    have hn : (fieldN w).toNat < 16 := (fieldN w).isLt
    simp only [imp_false] at *
    simp only [Except.error.injEq, eq_comm (a := e), BitVec.toNat_ofNat, iff_and_self]
    omega
  all_goals simp_all

theorem decodeE_eq_error_iff : decodeE w = .error e ↔ fieldKK w ∉ [0x9E#8, 0xA1#8] ∧ e = .noPattern w := by
  simp only [List.mem_cons, List.not_mem_nil, or_false, ← BitVec.toNat_inj]
  unfold decodeE
  split
  case h_3 => simp_all [eq_comm]
  all_goals simp_all

theorem decodeF_eq_error_iff :
    decodeF w = .error e ↔
      fieldKK w ∉ [0x07#8, 0x0A#8, 0x15#8, 0x18#8, 0x1E#8, 0x29#8, 0x33#8, 0x55#8, 0x65#8] ∧ e = .noPattern w := by
  simp only [List.mem_cons, List.not_mem_nil, or_false, ← BitVec.toNat_inj]
  unfold decodeF
  split
  case h_10 => simp_all [eq_comm]
  all_goals simp_all

/-- A family that its nibble alone decides never fails. -/
theorem decode_eq_error_iff : decode w = .error e ↔ Undefined w ∧ e = .noPattern w := by
  unfold decode
  split
  case h_9 hf => simp [decode8_eq_error_iff, Undefined, show fieldF w = 0x8#4 from BitVec.eq_of_toNat_eq hf]
  case h_15 hf => simp [decodeE_eq_error_iff, Undefined, show fieldF w = 0xE#4 from BitVec.eq_of_toNat_eq hf]
  case h_16 =>
    have hlt : (fieldF w).toNat < 16 := (fieldF w).isLt
    simp only [imp_false] at *
    have hf : fieldF w = 0xF#4 := BitVec.eq_of_toNat_eq (show (fieldF w).toNat = 15 by omega)
    simp [decodeF_eq_error_iff, Undefined, hf]
  all_goals next hf => simp [Undefined, ← BitVec.toNat_inj, hf]

end Failures

/-! ### The opcode map (30_encoding.md R61) -/

/-- The word of every instruction selects the instruction's row. -/
theorem opcodeMap_statement : ∀ i : Instr, Laws.OpcodeMap.Statement i
  | .cls => Laws.OpcodeMap.cls
  | .ret => Laws.OpcodeMap.ret
  | .sys nnn => Laws.OpcodeMap.sys nnn
  | .jp nnn => Laws.OpcodeMap.jp nnn
  | .call nnn => Laws.OpcodeMap.call nnn
  | .seImm x kk => Laws.OpcodeMap.seImm x kk
  | .sneImm x kk => Laws.OpcodeMap.sneImm x kk
  | .seReg x y => Laws.OpcodeMap.seReg x y
  | .ldImm x kk => Laws.OpcodeMap.ldImm x kk
  | .addImm x kk => Laws.OpcodeMap.addImm x kk
  | .ldReg x y => Laws.OpcodeMap.ldReg x y
  | .orReg x y => Laws.OpcodeMap.orReg x y
  | .andReg x y => Laws.OpcodeMap.andReg x y
  | .xorReg x y => Laws.OpcodeMap.xorReg x y
  | .addReg x y => Laws.OpcodeMap.addReg x y
  | .subReg x y => Laws.OpcodeMap.subReg x y
  | .shr x y => Laws.OpcodeMap.shr x y
  | .subn x y => Laws.OpcodeMap.subn x y
  | .shl x y => Laws.OpcodeMap.shl x y
  | .sneReg x y => Laws.OpcodeMap.sneReg x y
  | .ldI nnn => Laws.OpcodeMap.ldI nnn
  | .jpV0 nnn => Laws.OpcodeMap.jpV0 nnn
  | .rnd x kk => Laws.OpcodeMap.rnd x kk
  | .drw x y n => Laws.OpcodeMap.drw x y n
  | .skp x => Laws.OpcodeMap.skp x
  | .sknp x => Laws.OpcodeMap.sknp x
  | .ldVxDt x => Laws.OpcodeMap.ldVxDt x
  | .ldVxK x => Laws.OpcodeMap.ldVxK x
  | .ldDtVx x => Laws.OpcodeMap.ldDtVx x
  | .ldStVx x => Laws.OpcodeMap.ldStVx x
  | .addI x => Laws.OpcodeMap.addI x
  | .ldF x => Laws.OpcodeMap.ldF x
  | .ldB x => Laws.OpcodeMap.ldB x
  | .dump x => Laws.OpcodeMap.dump x
  | .load x => Laws.OpcodeMap.load x

theorem selectsRow_iff {w : Word} {i : Instr} : selectsRow w i = true ↔ w &&& (opcodeRow i).1 = (opcodeRow i).2 := beq_iff_eq

/-! Facts of the rows, one by one. -/

/-- Every mask holds the whole family nibble. -/
theorem fieldF_mask (i : Instr) : fieldF (opcodeRow i).1 = BitVec.allOnes 4 := by
  cases i <;> simp only [opcodeRow] <;> decide

theorem fieldN_mask (i : Instr) : fieldF (opcodeRow i).2 = 0x8#4 → fieldN (opcodeRow i).1 = BitVec.allOnes 4 := by
  cases i <;> simp only [opcodeRow] <;> decide

theorem fieldKK_mask (i : Instr) :
    fieldF (opcodeRow i).2 = 0xE#4 ∨ fieldF (opcodeRow i).2 = 0xF#4 → fieldKK (opcodeRow i).1 = BitVec.allOnes 8 := by
  cases i <;> simp only [opcodeRow] <;> decide

/-- The rows of the families 5 and 9 do not look at the low nibble (R57). -/
theorem mask_of_unexamined (i : Instr) :
    fieldF (opcodeRow i).2 = 0x5#4 ∨ fieldF (opcodeRow i).2 = 0x9#4 → (opcodeRow i).1 = 0xF000#16 := by
  cases i <;> simp only [opcodeRow] <;> decide

theorem not_undefined_match (i : Instr) : ¬Undefined (opcodeRow i).2 := by
  cases i <;> simp only [opcodeRow] <;> decide

/-- The mask of a family's rows, the two literals of family 0 apart. -/
def familyMask (f : Nibble) : Word := if f = 0x8#4 then 0xF00F#16 else if f = 0xE#4 ∨ f = 0xF#4 then 0xF0FF#16 else 0xF000#16

theorem mask_eq_familyMask (i : Instr) :
    i = .cls ∨ i = .ret ∨ (opcodeRow i).1 = familyMask (fieldF (opcodeRow i).2) := by
  cases i with
  | cls => exact .inl rfl
  | ret => exact .inr (.inl rfl)
  | _ =>
    refine .inr (.inr ?_)
    simp only [opcodeRow]
    decide

/-! From the rows to the words that select them. -/

theorem and_of_eq_allOnes {n : Nat} {a m : BitVec n} (h : m = BitVec.allOnes n) : a &&& m = a := by
  rw [h, BitVec.and_allOnes]

section Select

variable {w : Word} {i j : Instr}

theorem fieldF_of_selectsRow (h : selectsRow w i = true) : fieldF w = fieldF (opcodeRow i).2 := by
  rw [← selectsRow_iff.mp h]
  exact (BitVec.extractLsb'_and.trans (and_of_eq_allOnes (fieldF_mask i))).symm

theorem fieldN_of_selectsRow (h : selectsRow w i = true) (h8 : fieldF (opcodeRow i).2 = 0x8#4) :
    fieldN w = fieldN (opcodeRow i).2 := by
  rw [← selectsRow_iff.mp h]
  exact (BitVec.extractLsb'_and.trans (and_of_eq_allOnes (fieldN_mask i h8))).symm

theorem fieldKK_of_selectsRow (h : selectsRow w i = true)
    (hEF : fieldF (opcodeRow i).2 = 0xE#4 ∨ fieldF (opcodeRow i).2 = 0xF#4) : fieldKK w = fieldKK (opcodeRow i).2 := by
  rw [← selectsRow_iff.mp h]
  exact (BitVec.extractLsb'_and.trans (and_of_eq_allOnes (fieldKK_mask i hEF))).symm

/-- A word that selects a row is as defined as the row's match. -/
theorem not_undefined_of_selectsRow (h : selectsRow w i = true) : ¬Undefined w := by
  have hF := fieldF_of_selectsRow h
  refine fun hun => not_undefined_match i ?_
  rcases hun with ⟨h8, hn⟩ | ⟨hE, hkk⟩ | ⟨hF', hkk⟩
  · have h8' := hF ▸ h8
    exact .inl ⟨h8', fieldN_of_selectsRow h h8' ▸ hn⟩
  · have hE' := hF ▸ hE
    exact .inr (.inl ⟨hE', fieldKK_of_selectsRow h (.inl hE') ▸ hkk⟩)
  · have hF'' := hF ▸ hF'
    exact .inr (.inr ⟨hF'', fieldKK_of_selectsRow h (.inr hF'') ▸ hkk⟩)

/-- A word that selects a row decodes. -/
theorem exists_decode_of_selectsRow (h : selectsRow w i = true) : ∃ k, decode w = .ok k := by
  cases hd : decode w with
  | ok k => exact ⟨k, rfl⟩
  | error e => exact absurd (decode_eq_error_iff.mp hd).1 (not_undefined_of_selectsRow h)

/-- A word that decodes selects the row of its instruction; the masks of the families 5 and 9 do not look at the low nibble. -/
theorem selectsRow_of_decode (hd : decode w = .ok i) : selectsRow w i = true := by
  obtain ⟨hwf, henc⟩ := decoded_of_decode hd
  obtain ⟨hsel, hfam⟩ := opcodeMap_statement i hwf
  rcases henc with henc | ⟨h59, henc⟩
  · rwa [henc] at hsel
  · have hkeep : fieldF (w &&& 0xFFF0#16) = fieldF w := BitVec.extractLsb'_and.trans (BitVec.and_allOnes (w := 4))
    rw [henc, hkeep] at hfam
    have hmask := mask_of_unexamined i (hfam ▸ h59)
    rw [selectsRow_iff, henc, BitVec.and_assoc, hmask] at hsel
    rwa [selectsRow_iff, hmask]

theorem eq_of_selectsRow_cls (h : selectsRow w .cls = true) : w = 0x00E0#16 :=
  BitVec.and_allOnes.symm.trans (selectsRow_iff.mp h)

theorem eq_of_selectsRow_ret (h : selectsRow w .ret = true) : w = 0x00EE#16 :=
  BitVec.and_allOnes.symm.trans (selectsRow_iff.mp h)

/-- Two rows that one word selects with one mask are one row. -/
theorem opcodeRow_eq_of_mask_eq (hi : selectsRow w i = true) (hj : selectsRow w j = true)
    (hmask : (opcodeRow i).1 = (opcodeRow j).1) : opcodeRow i = opcodeRow j :=
  Prod.ext hmask (by rw [← selectsRow_iff.mp hi, ← selectsRow_iff.mp hj, hmask])

/-- A row that a literal of family 0 selects under its family's mask is the catch-all. -/
theorem opcodeRow_eq_catchAll (hj : selectsRow w j = true) (hmask : (opcodeRow j).1 = familyMask (fieldF (opcodeRow j).2))
    (hw : w = 0x00E0#16 ∨ w = 0x00EE#16) : opcodeRow j = (0xF000#16, 0x0000#16) := by
  have hm : (opcodeRow j).1 = 0xF000#16 := by
    rw [hmask, ← fieldF_of_selectsRow hj]
    rcases hw with rfl | rfl <;> decide
  refine Prod.ext hm ?_
  rw [← selectsRow_iff.mp hj, hm]
  rcases hw with rfl | rfl <;> decide

/-- The row of the instruction decoded is the row selected, but for the catch-all and its literals. -/
theorem opcodeRow_of_decode (hd : decode w = .ok i) (hj : selectsRow w j = true) :
    opcodeRow i = opcodeRow j ∨ (opcodeRow j = (0xF000#16, 0x0000#16) ∧ (i = .cls ∨ i = .ret)) := by
  have hi := selectsRow_of_decode hd
  rcases mask_eq_familyMask j with rfl | rfl | hmj
  · rw [eq_of_selectsRow_cls hj] at hd
    exact .inl (congrArg opcodeRow (Except.ok.inj (hd.symm.trans decode_cls)))
  · rw [eq_of_selectsRow_ret hj] at hd
    exact .inl (congrArg opcodeRow (Except.ok.inj (hd.symm.trans decode_ret)))
  rcases mask_eq_familyMask i with rfl | rfl | hmi
  · exact .inr ⟨opcodeRow_eq_catchAll hj hmj (.inl (eq_of_selectsRow_cls hi)), .inl rfl⟩
  · exact .inr ⟨opcodeRow_eq_catchAll hj hmj (.inr (eq_of_selectsRow_ret hi)), .inr rfl⟩
  · exact .inl (opcodeRow_eq_of_mask_eq hi hj (by rw [hmi, hmj, ← fieldF_of_selectsRow hi, ← fieldF_of_selectsRow hj]))

end Select

/-! ### The obligations of 30_encoding.md -/

/-- Settles O2: instruction by instruction, and the word is rebuilt from its two bytes. -/
theorem decodeEncodeAgree : Obligations.DecodeEncodeAgree := fun _ hwf =>
  ⟨decode_encode hwf, decodeBytes_of_decode (decode_encode hwf)⟩

/-- Settles O3: family by family, the fields put together again. -/
theorem encodeDecodeAgree : Obligations.EncodeDecodeAgree := fun _ _ => decoded_of_decode

/-- Settles O4: the sub-opcode lists of the three families, and every other family decodes. -/
theorem decodeFailsExactlyOn : Obligations.DecodeFailsExactlyOn := by
  refine ⟨fun w => ⟨?_, fun hun => ?_⟩, fun w e he => (decode_eq_error_iff.mp he).2⟩
  · rintro ⟨e, he⟩
    exact (decode_eq_error_iff.mp he).1
  · exact ⟨_, decode_eq_error_iff.mpr ⟨hun, rfl⟩⟩

/-- Settles O5: a word that selects a row decodes, and the masks of one family are one mask but for the two literals. -/
theorem opcodeMapIsUnambiguous : Obligations.OpcodeMapIsUnambiguous := by
  refine ⟨fun _ _ => selectsRow_of_decode, fun w j hj => ?_⟩
  obtain ⟨i, hd⟩ := exists_decode_of_selectsRow hj
  exact ⟨i, hd, opcodeRow_of_decode hd hj⟩

/-- Settles O1: eleven fixed words. -/
theorem specWordsDecode : Obligations.SpecWordsDecode := by
  unfold Obligations.SpecWordsDecode
  decide

end Sys2Proof

namespace Sys2Proof.Machine

/-! ### The flag of the reverse subtraction (42_data_ops.md R96) -/

theorem reverseFlag_canonical (vx vy : Byte) :
    reverseFlag .canonical vx vy = some (if vx.toNat ≤ vy.toNat then 1#8 else 0#8) := by
  simp [reverseFlag, bitFlag]

/-! ### A key wait (40_cycle.md R63, R73) -/

theorem step_of_awaiting {s : State} {x : Reg} (ha : s.awaiting = some x) : step s = .next s := by
  rcases step_cases s with ⟨hheld, -⟩ | ⟨-, hnone, -⟩
  · exact hheld
  · cases ha.symm.trans hnone

/-- A cycle that ends in a wait, or is held by one, answers `AwaitingKey`. -/
theorem cycleOutcome_of_awaiting {s t : State} {x : Reg} (hs : s.fault = none) (htf : t.fault = none)
    (ht : t.awaiting = some x) : cycleOutcome s t = .awaitingKey := by
  simp [cycleOutcome, hs, htf, ht]

theorem onlyChanges_tell (s : State) (c : Call) : OnlyChanges [.calls] s (s.tell c) := by
  refine ⟨fun p hp => ?_, rfl⟩
  cases p with
  | calls => simp at hp
  | mem | v => exact fun _ => rfl
  | i | pc | stack | dt | st | awaiting | fault => rfl

/-! ### The obligations left of 42_data_ops.md and 43_io_adjacent.md -/

/-- Settles O28: under each policy the flag is that policy's, written over the difference where `x` is 15. -/
theorem reverseSubFollowsFlagPolicy : Obligations.ReverseSubFollowsFlagPolicy := by
  intro x y s
  refine ⟨decode_subn x y, _, rfl, State.setFlag_pc _ _, onlyChanges_result_flag s x _ _,
    fun r => getV_result_flag_other, fun hx => ?_, fun hpol => ⟨fun hborrow => ?_, fun hno hx => ?_, fun hno hx => ?_⟩,
    fun hpol => ?_⟩
  · rw [getV_result (.inl hx), toNat_sub_byte]
  · exact getV_flag_of_some (hpol ▸ borrowFlag_of_borrow hborrow)
  · exact getV_flag_of_none (hpol ▸ borrowFlag_of_no_borrow hno) hx
  · subst hx
    rw [getV_result (.inr (hpol ▸ borrowFlag_of_no_borrow hno))]
    exact BitVec.toNat_sub_of_le (BitVec.le_def.mpr hno)
  · exact getV_flag_of_some (hpol ▸ reverseFlag_canonical _ _)

/-- Settles O33: the request is recorded, and no answer is used. -/
theorem clearScreenOnlyRequests : Obligations.ClearScreenOnlyRequests :=
  ⟨decode_cls, fun s => ⟨_, rfl, rfl, rfl, rfl, (onlyChanges_tell s.advance .clearScreen).of_advance.mono (by simp)⟩⟩

/-- Settles O36: the wait holds the cycles after it, until `supplyKey` writes the register and ends it. -/
theorem keyWaitSuspendsUntilSupplied : Obligations.KeyWaitSuspendsUntilSupplied := by
  intro x s
  refine ⟨decode_ldVxK x, s.advance.setAwaiting (some x), rfl, rfl, rfl, (onlyChanges_setAwaiting _ _).of_advance,
    step_of_awaiting rfl, fun hs => ?_, fun k hk => ?_⟩
  · exact ⟨cycleOutcome_of_awaiting hs.1 hs.1 rfl, cycleOutcome_of_awaiting hs.1 hs.1 rfl⟩
  · obtain ⟨u, hu, hx, hother, hend, hframe⟩ := supplyKey_ends_wait (s := s.advance.setAwaiting (some x)) hk rfl
    exact ⟨u, hu, hx, hother, hend, hframe.1 .pc (by simp), hframe⟩

end Sys2Proof.Machine
end
